-- ==== Sys2Proof/Word.lean ====
section
/-! DEFINITION. The one word type of the block: every buffer cell, ROM cell and frame byte is 8 bits wide (R15, R50, R56). -/

namespace Sys2Proof

/-- `UInt8` of R15: an 8-bit value, bit 0 the least significant. -/
abbrev Byte := BitVec 8

/-- The 32 bits of a `value` operand port, read as `Int32` by RENDER_DEC and as `UInt32` by RENDER_HEX (R71, R72). -/
abbrev Word32 := BitVec 32

end Sys2Proof
end

