-- ==== Sys2Proof/Syntax.lean ====
section
/-! DEFINITION. What the block is asked to do: a request as its ports carry it (R70, R71), and `Instr`, one constructor per
row of spec/opcode_table.json (the 15 requests, the reserved opcode and the two wire frames the block emits). -/

namespace Sys2Proof

/-- A request as it stands at the block's input: the 4-bit `OP` and every operand port of R71, at its width there. The operation
`OP` selects reads the ports R71 lists for it and no other (R70). `value` is the port of both RENDER_DEC and RENDER_HEX. -/
structure Request where
  op        : BitVec 4
  size      : Byte
  seg       : Byte
  digit     : Byte
  sym       : Byte
  raw       : Byte
  dot       : BitVec 1
  value     : Word32
  decPoint  : Byte
  suppress  : BitVec 1
  battery   : Byte
  text      : List Byte
  bytes     : List Byte
  count     : Nat
  hours     : Byte
  minutes   : Byte
  separator : BitVec 1
  day       : Byte
  month     : Byte
deriving DecidableEq, Repr

/-- The instructions: the operations `OP` selects (R71), the reserved opcode (R79), and the two wire frames (R73, R74), which the
block emits and no request carries. -/
inductive Instr where
  /-- INIT size (R210). -/
  | init (size : Byte)
  /-- CLEAR (R214). -/
  | clear
  /-- PREPARE (R124). -/
  | prepare
  /-- SET_DIGIT seg, digit, dot (R121). -/
  | setDigit (seg digit : Byte) (dot : Bool)
  /-- SET_CHAR seg, sym, dot (R122). -/
  | setChar (seg sym : Byte) (dot : Bool)
  /-- SET_RAW seg, raw (R123). -/
  | setRaw (seg raw : Byte)
  /-- SHOW (R151). -/
  | showFrame
  /-- RENDER_DEC value, dec_point, suppress, battery (R172). -/
  | renderDec (value : Word32) (decPoint : Byte) (suppress : Bool) (battery : Byte)
  /-- RENDER_HEX value, suppress, battery (R180). -/
  | renderHex (value : Word32) (suppress : Bool) (battery : Byte)
  /-- RENDER_STR text, battery (R185). -/
  | renderStr (text : List Byte) (battery : Byte)
  /-- RENDER_RAW bytes, count (R188). -/
  | renderRaw (bytes : List Byte) (count : Nat)
  /-- RENDER_CLOCK hours, minutes, separator (R190). -/
  | renderClock (hours minutes : Byte) (separator : Bool)
  /-- RENDER_DATE day, month (R191). -/
  | renderDate (day month : Byte)
  /-- POWER_ON (R212). -/
  | powerOn
  /-- POWER_OFF (R213). -/
  | powerOff
  /-- `OP = 0xF`, reserved (R79). -/
  | reserved
  /-- WIRE_CMD: the command frame of code `k` (R73), emitted by the block, not a request. -/
  | wireCmd (k : Byte)
  /-- WIRE_WRITE: the display-write frame of the patterns `data` and the 7 padding bits `pad` (R74), emitted by the block, not a
  request. -/
  | wireWrite (data : List Byte) (pad : BitVec 7)
deriving DecidableEq, Repr

/-- The instructions an `OP` selects: all but the two wire frames (R70, R75: a request never carries a command code). -/
def Instr.isRequest : Instr → Bool
  | .init _ => true
  | .clear => true
  | .prepare => true
  | .setDigit _ _ _ => true
  | .setChar _ _ _ => true
  | .setRaw _ _ => true
  | .showFrame => true
  | .renderDec _ _ _ _ => true
  | .renderHex _ _ _ => true
  | .renderStr _ _ => true
  | .renderRaw _ _ => true
  | .renderClock _ _ _ => true
  | .renderDate _ _ => true
  | .powerOn => true
  | .powerOff => true
  | .reserved => true
  | .wireCmd _ => false
  | .wireWrite _ _ => false

/-- The requests that read `N`, which are refused before the first INIT (R262). -/
def Instr.needsSize : Instr → Bool
  | .init _ => false
  | .clear => true
  | .prepare => true
  | .setDigit _ _ _ => true
  | .setChar _ _ _ => true
  | .setRaw _ _ => true
  | .showFrame => true
  | .renderDec _ _ _ _ => true
  | .renderHex _ _ _ => true
  | .renderStr _ _ => true
  | .renderRaw _ _ => true
  | .renderClock _ _ _ => true
  | .renderDate _ _ => true
  | .powerOn => false
  | .powerOff => false
  | .reserved => false
  | .wireCmd _ => false
  | .wireWrite _ _ => false

end Sys2Proof
end

