-- ==== Sys2Proof/WellFormed.lean ====
section
/-! DEFINITION. Which instructions are well formed. The decoder accepts every value of every operand port (R72), so the only
check is the length of a display-write frame. -/

namespace Sys2Proof

/-- The least and the greatest `N` (R7). -/
def minSize : Nat := 2
/-- The greatest `N` (R7). -/
def maxSize : Nat := 16

/-- A display-write frame carries the `N` patterns of some `N` in `[2,16]` (R7, R74). Every other instruction is well formed at
every value of its operands (R72). -/
def Instr.wellFormed : Instr → Bool
  | .init _ => true
  | .clear => true
  | .prepare => true
  | .setDigit _ _ _ => true
  | .setChar _ _ _ => true
  | .setRaw _ _ => true
  | .showFrame => true
  | .renderDec _ _ _ _ => true
  | .renderHex _ _ _ => true
  | .renderStr _ _ => true
  | .renderRaw _ _ => true
  | .renderClock _ _ _ => true
  | .renderDate _ _ => true
  | .powerOn => true
  | .powerOff => true
  | .reserved => true
  | .wireCmd _ => true
  | .wireWrite data _ => decide (minSize ≤ data.length) && decide (data.length ≤ maxSize)

end Sys2Proof
end

