-- ==== Sys2Proof/Decode.lean ====
section
/-! DEFINITION. The two decoders (a request from its ports, R70 to R72; a wire frame from its bytes, R73, R74, R77), then the
encoder written from the same tables, then the host's entry for words of spec/opcode_table.json. -/

namespace Sys2Proof

/-- Why bytes are no frame of the block. -/
inductive DecodeError where
  /-- The first three bits are neither `100` nor `101` (R77). -/
  | unknownMarker
  /-- Not 2 bytes after `100`, or not `N + 2` bytes for an `N` in `[2,16]` after `101` (R77). -/
  | badLength
  /-- A command frame whose low 5 bits (the don't-care bit and the padding) are not 0 (R73). -/
  | badPadding
  /-- A write frame whose 6-bit start address is not 0 (R53, R74). -/
  | badAddress
deriving DecidableEq, Repr

/-- What a decoder is given: a request at the input ports, or a frame's bytes in the order sent. -/
inductive Code where
  | request (r : Request)
  | frame (bytes : List Byte)
deriving DecidableEq, Repr

/-- A 1-bit operand port is a boolean, 1 meaning true (R72). -/
def bitTrue (b : BitVec 1) : Bool := b == 1#1

/-- The request decoder: `OP` alone selects the operation (R70, R71), every value of every port is accepted (R72). -/
def decodeRequest (r : Request) : Instr :=
  match r.op.toNat with
  | 0x0 => .init r.size
  | 0x1 => .clear
  | 0x2 => .prepare
  | 0x3 => .setDigit r.seg r.digit (bitTrue r.dot)
  | 0x4 => .setChar r.seg r.sym (bitTrue r.dot)
  | 0x5 => .setRaw r.seg r.raw
  | 0x6 => .showFrame
  | 0x7 => .renderDec r.value r.decPoint (bitTrue r.suppress) r.battery
  | 0x8 => .renderHex r.value (bitTrue r.suppress) r.battery
  | 0x9 => .renderStr r.text r.battery
  | 0xA => .renderRaw r.bytes r.count
  | 0xB => .renderClock r.hours r.minutes (bitTrue r.separator)
  | 0xC => .renderDate r.day r.month
  | 0xD => .powerOn
  | 0xE => .powerOff
  | _ => .reserved

/-- The patterns a write frame carries, from its bytes after the header: pattern `p` is the low 7 bits of byte `p` and the top bit
of byte `p + 1` (R153). -/
def unshiftData : List Byte → List Byte
  | a :: b :: rest => (a.extractLsb' 0 7 ++ b.extractLsb' 7 1) :: unshiftData (b :: rest)
  | _ => []

/-- The padding a write frame ends with: the low 7 bits of its last byte (R74, R153). -/
def framePad (bytes : List Byte) : BitVec 7 := (bytes.getLastD 0#8).extractLsb' 0 7

/-- The frame decoder: the marker tells the frame kind (R77), the layouts are R73 and R74. -/
def decodeFrame (bytes : List Byte) : Except DecodeError Instr :=
  match bytes with
  | [] => .error .badLength
  | f0 :: body =>
    if f0.extractLsb' 5 3 = 0b100#3 then
      match body with
      | [f1] =>
        if f1.extractLsb' 0 5 = 0#5 then .ok (.wireCmd (f0.extractLsb' 0 5 ++ f1.extractLsb' 5 3))
        else .error .badPadding
      | _ => .error .badLength
    else if f0.extractLsb' 5 3 = 0b101#3 then
      if f0.extractLsb' 0 5 = 0#5 ∧ (body.headD 0#8).extractLsb' 7 1 = 0#1 then
        if minSize + 1 ≤ body.length ∧ body.length ≤ maxSize + 1 then
          .ok (.wireWrite (unshiftData body) (framePad body))
        else .error .badLength
      else .error .badAddress
    else .error .unknownMarker

/-- Decode whatever the block is given or emits. -/
def decode : Code → Except DecodeError Instr
  | .request r => .ok (decodeRequest r)
  | .frame bytes => decodeFrame bytes

/-- A request with the given `OP` and every operand port 0 or empty. -/
def Request.ofOp (op : BitVec 4) : Request where
  op        := op
  size      := 0#8
  seg       := 0#8
  digit     := 0#8
  sym       := 0#8
  raw       := 0#8
  dot       := 0#1
  value     := 0#32
  decPoint  := 0#8
  suppress  := 0#1
  battery   := 0#8
  text      := []
  bytes     := []
  count     := 0
  hours     := 0#8
  minutes   := 0#8
  separator := 0#1
  day       := 0#8
  month     := 0#8

/-- The 1-bit port of a boolean (R72). -/
def boolBit (b : Bool) : BitVec 1 := BitVec.ofBool b

/-- The 16 bits of a command frame as R73's table lays them out: `100`, the code, the don't-care bit and the padding. -/
def commandWord (k : Byte) : BitVec 16 := 0b100#3 ++ k ++ 0#5

/-- A command frame as bytes, bit 15 sent first (R73, R54). -/
def commandFrame (k : Byte) : List Byte := [(commandWord k).extractLsb' 8 8, (commandWord k).extractLsb' 0 8]

/-- The bytes of a write frame after its header: each byte takes the last bit of the byte before it and the top 7 bits of its own
pattern, and the padding ends the frame (R74, R153). `carry` is the bit that comes first. -/
def frameBody (carry : BitVec 1) (data : List Byte) (pad : BitVec 7) : List Byte :=
  match data with
  | [] => [carry ++ pad]
  | p :: rest => (carry ++ p.extractLsb' 1 7) :: frameBody (p.extractLsb' 0 1) rest pad

/-- A display-write frame (R74): the byte `0xA0` (marker `101`, five address bits), then the 6th address bit 0, the data and the
padding as one stream. -/
def writeFrame (data : List Byte) (pad : BitVec 7) : List Byte := 0xA0#8 :: frameBody 0#1 data pad

/-- The encoder: the ports R71 lists for the instruction carry its operands, every other port is 0 or empty; a wire frame is
its bytes. -/
def encode : Instr → Code
  | .init size => .request { Request.ofOp 0x0#4 with size := size }
  | .clear => .request (Request.ofOp 0x1#4)
  | .prepare => .request (Request.ofOp 0x2#4)
  | .setDigit seg digit dot => .request { Request.ofOp 0x3#4 with seg := seg, digit := digit, dot := boolBit dot }
  | .setChar seg sym dot => .request { Request.ofOp 0x4#4 with seg := seg, sym := sym, dot := boolBit dot }
  | .setRaw seg raw => .request { Request.ofOp 0x5#4 with seg := seg, raw := raw }
  | .showFrame => .request (Request.ofOp 0x6#4)
  | .renderDec value decPoint suppress battery =>
    .request { Request.ofOp 0x7#4 with value := value, decPoint := decPoint, suppress := boolBit suppress, battery := battery }
  | .renderHex value suppress battery =>
    .request { Request.ofOp 0x8#4 with value := value, suppress := boolBit suppress, battery := battery }
  | .renderStr text battery => .request { Request.ofOp 0x9#4 with text := text, battery := battery }
  | .renderRaw bytes count => .request { Request.ofOp 0xA#4 with bytes := bytes, count := count }
  | .renderClock hours minutes separator =>
    .request { Request.ofOp 0xB#4 with hours := hours, minutes := minutes, separator := boolBit separator }
  | .renderDate day month => .request { Request.ofOp 0xC#4 with day := day, month := month }
  | .powerOn => .request (Request.ofOp 0xD#4)
  | .powerOff => .request (Request.ofOp 0xE#4)
  | .reserved => .request (Request.ofOp 0xF#4)
  | .wireCmd k => .frame (commandFrame k)
  | .wireWrite data pad => .frame (writeFrame data pad)

/-- What the word `w` of a row of spec/opcode_table.json stands for. A row of 4 bits is an `OP` with every operand port 0. A row of 16
bits is the first two bytes of a wire frame, bit 15 sent first (R54, R73): a command frame ends there, a write frame goes on with
zeros up to the longest one, `maxSize + 2` bytes. -/
def tableCode (nbits w : Nat) : Code :=
  if nbits ≤ 8 then .request (Request.ofOp (BitVec.ofNat 4 w))
  else
    let word := BitVec.ofNat 16 w
    let first := [word.extractLsb' 8 8, word.extractLsb' 0 8]
    if word.extractLsb' 13 3 = 0b101#3 then .frame (first ++ List.replicate maxSize 0#8) else .frame first

/-- The host's question: what the decoder reads from the word `w` of a table row of `nbits` bits. -/
def decodeTableWord (nbits w : Nat) : Option Instr := (decode (tableCode nbits w)).toOption

end Sys2Proof
end

