-- ==== Sys2Proof/Config.lean ====
section
/-! DEFINITION. What is fixed for one block and what its environment answers: the spec's OPEN parameters (R8, R9, R11, R13)
and the transport's free status draws (R78), each an opaque constant that no proof can look into. -/

namespace Sys2Proof

/-- `MODE`, the wiring mode: the block's one build option (R2, R8). -/
inductive WiringMode where
  | genericLayout
  | clockLayout
deriving DecidableEq, Repr, Inhabited

/-- `DATE_LAYOUT` (R13): which of day and month the date renderer puts in positions 3 and 4. -/
inductive DateLayout where
  | dayHigh
  | monthHigh
deriving DecidableEq, Repr, Inhabited

/-- The `ab` field of a bias command: how many commons (R76; general knowledge, informative only). -/
inductive Commons where
  | two
  | three
  | four
deriving DecidableEq, Repr, Inhabited

/-- `CommandName`, the closed enumeration of the chip's configuration commands (R103, the rows of R76). -/
inductive CommandName where
  | sysDis
  | sysEn
  | lcdOff
  | lcdOn
  | timerDis
  | wdtDis
  | timerEn
  | wdtEn
  | toneOff
  | toneOn
  | clrTimer
  | clrWdt
  | xtal32K
  | rc256K
  | ext256K
  | biasHalf (ab : Commons)
  | biasThird (ab : Commons)
  | tone4K
  | tone2K
  | irqDis
  | irqEn
  | timebase (k : Fin 8)
  | test
  | normal
deriving DecidableEq, Repr, Inhabited

/-- The status one `transmit` returns (R78) and the value of the `STATUS` output (R27). -/
inductive BusStatus where
  | ok
  | fail
deriving DecidableEq, Repr, Inhabited

/-- `MODE` of this block: fixed for its life, no request changes it (R8, R126). OPEN, log entry 1. -/
opaque Config.mode : WiringMode

/-- `DIGIT_ROM(MODE)`: 16 cells, indices 0..15 (R9, R50). OPEN, log entry 1. -/
opaque Config.digitRom : WiringMode → Fin 16 → Byte

/-- `CHAR_ROM(MODE)`: 56 cells at the hardware address `sym - 40` (R9, R50). OPEN, log entry 1. -/
opaque Config.charRom : WiringMode → Fin 56 → Byte

/-- `DOT_MASK(MODE)` (R9). OPEN, log entry 1. -/
opaque Config.dotMask : WiringMode → Byte

/-- `MINUS(MODE)` (R9). OPEN, log entry 1. -/
opaque Config.minus : WiringMode → Byte

/-- `CMD_CODE`: the 8-bit code of a configuration command (R11, R75). OPEN, log entry 1. -/
opaque Config.cmdCode : CommandName → Byte

/-- `BIAS_CODE`: the code INIT sends for "set bias configuration" (R11). OPEN, log entry 1. -/
opaque Config.biasCode : Byte

/-- `OSC_CODE`: the code INIT sends for "select oscillator source" (R11). OPEN, log entry 1. -/
opaque Config.oscCode : Byte

/-- `DATE_LAYOUT` of this block (R13). OPEN, log entry 1. -/
opaque Config.dateLayout : DateLayout

/-- What the transport answers to the `k`-th `transmit` for which the state lists no answer: a free draw (R78, I7),
log entry 2. -/
opaque Config.transmitStatus : Nat → BusStatus

end Sys2Proof
end

