-- ==== Sys2Proof/Machine/Flags.lean ====
section
/-! DEFINITION. The one status flag, `STATUS`: how the statuses of a request's transmits fold into it (R27, R210). The block has
no condition codes (R22). -/

namespace Sys2Proof.Machine

/-- OK exactly when both are OK (R27). -/
def bothOk : BusStatus → BusStatus → BusStatus
  | .ok, .ok => .ok
  | .ok, .fail => .fail
  | .fail, _ => .fail

end Sys2Proof.Machine
end

