-- ==== Sys2Proof/Machine/Operands.lean ====
section
/-! DEFINITION. How operands are read (R72) and clamped (R211, R175, R185, R188), and the digits of numbers (R173, R180, R192). -/

namespace Sys2Proof.Machine

/-- A `UInt8` operand as an unsigned integer in 0..255 (R72). -/
def uint8 (b : Byte) : Nat := b.toNat

/-- `RENDER_DEC.value`, a two's-complement integer (R72). -/
def int32 (v : Word32) : Int := v.toInt

/-- `RENDER_HEX.value`, an unsigned integer (R72). -/
def uint32 (v : Word32) : Nat := v.toNat

/-- `Clamp(size)` (R211), as the 5-bit register `N` holds it (R21). -/
def clampSize (size : Byte) : BitVec 5 := BitVec.ofNat 5 (max minSize (min maxSize (uint8 size)))

/-- A battery level clamped to `[0,3]` (R175). -/
def clampLevel (level : Byte) : Nat := min (uint8 level) 3

/-- `neg` of R172. -/
def isNegative (v : Word32) : Bool := decide (int32 v < 0)

/-- `|value|`, exact, 0 .. 2^31 (R173). -/
def magnitude (v : Word32) : Nat := (int32 v).natAbs

/-- The ones digit of a two-digit split (R192). -/
def ones (v : Byte) : Nat := uint8 v % 10

/-- The tens digit of a two-digit split (R192). -/
def tens (v : Byte) : Nat := uint8 v / 10

end Sys2Proof.Machine
end

