-- ==== Sys2Proof/Machine/State.lean ====
section
/-! DEFINITION. The block's state as plain data (R20), the record of a run (D29), the environment's inputs, and the state after
reset (R28). -/

namespace Sys2Proof.Machine

/-- The label a `transmit` carries: `T_CMD` or `T_SHOW` (R12). -/
inductive Timeout where
  | tCmd
  | tShow
deriving DecidableEq, Repr

/-- A bus event: the transport contract's two calls, with the status `transmit` returned (R78, D29). -/
inductive BusEvent where
  | select (active : Bool)
  | transmit (bytes : List Byte) (timeout : Timeout) (status : BusStatus)
deriving DecidableEq, Repr

/-- The `reason` of a `refuse(reason)` (R17, R236). -/
inductive RefuseReason where
  /-- `OP = 0xF` (R79). -/
  | reservedOpcode
  /-- The request needs `N` and no INIT has run (R262). -/
  | notInitialised
  /-- RENDER_RAW with `min(count, N)` greater than the data's length (R188). -/
  | rawCountExceedsData
deriving DecidableEq, Repr

/-- Why the model stops. The spec's own `fault(UnwrittenBuffer)` is not here: it ends its request in a state with `FAULTED` set
(R17, R235), which is a next state. -/
inductive Fault where
  /-- Raised by every request that needs `N`, where the register `N` holds a number above 16, so that cells past the buffer's 18
  would be accessed. Such an access is never formed in a run (R21, R56). SAFE: the model stops where the spec has no behaviour. -/
  | noSuchCell
deriving DecidableEq, Repr

/-- Why the model gives an instruction no meaning. The spec's own `refuse(reason)` is not here: it sets the mark `REFUSED` and the
run goes on (R17, R236), which is a next state. -/
inductive Refusal where
  /-- Raised by an arm of exec whose instruction has no meaning yet; no arm does. SAFE: nothing is claimed of it. -/
  | notModelled (mnemonic : String)
deriving DecidableEq, Repr

/-- The segment buffer `B` as (index, byte) pairs: indices strictly rising, each below 18. An index that is not listed is
unwritten, `⊥` (R23, R26). -/
abbrev Memory := List Host.Cell

/-- The state. `n`, `buf`, `status`, `faulted` and `refused` are the spec's (R20); `events` is the record of a run (D29);
`refusals`, `requests`, `transport` and `drawIndex` are the model's own. -/
structure State where
  /-- `N`, DisplaySize: 5 bits, no value before the first INIT (R21). -/
  n : Option (BitVec 5)
  /-- `B`, the segment buffer (R23). -/
  buf : Memory
  /-- `STATUS` (R27). -/
  status : BusStatus
  /-- `FAULTED` (R235). -/
  faulted : Bool
  /-- `REFUSED` (R236). -/
  refused : Bool
  /-- Every bus event of the run so far, oldest first (R17, D29). -/
  events : List BusEvent
  /-- The reasons of the refusals so far, oldest first. Model's own, log entry 5. -/
  refusals : List RefuseReason
  /-- The requests the host has yet to issue, next first: a program (R81). Model's own, log entry 4. -/
  requests : List Request
  /-- The statuses the transport will return, next first, as far as they are listed. Model's own, log entry 2. -/
  transport : List BusStatus
  /-- The index of the next free draw, used when `transport` lists none. Model's own, log entry 2. -/
  drawIndex : Nat
deriving DecidableEq, Repr

/-- The state after reset (construction): R28, R260. Nothing has been sent, nothing asked, and the transport's answers are free
draws. -/
def State.reset : State where
  n         := none
  buf       := []
  status    := .ok
  faulted   := false
  refused   := false
  events    := []
  refusals  := []
  requests  := []
  transport := []
  drawIndex := 0

end Sys2Proof.Machine
end

