-- ==== Sys2Proof/Machine/Ops.lean ====
section
/-! DEFINITION. The named operations every meaning is made of: the buffer's cells, the ROMs, the bus transaction, the command
encoder, the outcomes `refuse` and `fault`, the frame shifter. The block has no exception entry and no return (R230, R238): what
stands in their place is `refuse` and `fault`, one operation each. -/

namespace Sys2Proof.Machine

/-- What a meaning answers. -/
abbrev Result := Host.Outcome State Fault Refusal

/-! ### The segment buffer -/

/-- The buffer's 18 cells (R14, R23). -/
def capacity : Nat := 18

/-- The canonical form of a buffer: indices strictly rising, each an existing cell. -/
abbrev Memory.wf (m : Memory) : Prop := (m.map Prod.fst).Pairwise (· < ·) ∧ ∀ c ∈ m, c.1 < capacity

/-- `B[i]` (R16); `none` is an unwritten cell, `⊥` (R26). What an unlisted cell reads as is this one clause. -/
def Memory.read : Memory → Nat → Option Byte
  | [], _ => none
  | (b, v) :: rest, a => if a = b then some v else Memory.read rest a

/-- Put a byte at its place in the rising list. -/
def Memory.insert : Memory → Nat → Byte → Memory
  | [], a, v => [(a, v)]
  | (b, w) :: rest, a, v =>
    if a < b then (a, v) :: (b, w) :: rest
    else if a = b then (a, v) :: rest
    else (b, w) :: Memory.insert rest a v

/-- `B[i] <- v` (R16). There is no cell at 18 or above: nothing is written there, and `withSize` stops before it is asked. -/
def Memory.write (m : Memory) (a : Nat) (v : Byte) : Memory := if a < capacity then Memory.insert m a v else m

/-- `B[i] <- B[i] | mask`, one cell. An unwritten cell has no value to OR into and stays unwritten. -/
def Memory.orCell (m : Memory) (a : Nat) (mask : Byte) : Memory :=
  match m.read a with
  | none => m
  | some v => m.write a (v ||| mask)

/-- `count` cells from `a` upwards, or `none` if one of them is unwritten. -/
def Memory.load (m : Memory) (a : Nat) : Nat → Option (List Byte)
  | 0 => some []
  | count + 1 =>
    match m.read a, m.load (a + 1) count with
    | some v, some rest => some (v :: rest)
    | _, _ => none

/-- Write consecutive cells from `a` upwards. -/
def Memory.store (m : Memory) (a : Nat) : List Byte → Memory
  | [] => m
  | v :: rest => (m.write a v).store (a + 1) rest

/-- The body of PREPARE (R124): cells `0..N+1` become 0. -/
def prepare (n : Nat) (m : Memory) : Memory := m.store 0 (List.replicate (n + 2) 0#8)

/-! ### Glyphs -/

/-- `DIGIT_ROM(MODE)[d]` for `d` in 0..15 (R125). -/
def digitGlyph (d : Nat) : Byte := Config.digitRom Config.mode (Fin.ofNat 16 d)

/-- `CHAR_ROM(MODE)[c]` for `c` in 40..95, at the cell address `c - 40` (R50, R125). -/
def charGlyph (c : Nat) : Byte := Config.charRom Config.mode (Fin.ofNat 56 (c - 40))

/-- `DOT_MASK(MODE)` (R9). -/
def dotMask : Byte := Config.dotMask Config.mode

/-- `MINUS(MODE)` (R9). -/
def minusPattern : Byte := Config.minus Config.mode

/-- `BAT_MASK`, in both wiring modes (R10). -/
def batMask : Byte := 0x80#8

/-- `dot ? DOT_MASK(MODE) : 0x00` (R121, R122). -/
def dotBits (dot : Bool) : Byte := if dot then dotMask else 0#8

/-- The body of SET_DIGIT (R121): the position is assigned, out of range nothing happens (R120). -/
def setDigitCell (n seg digit : Nat) (dot : Bool) (m : Memory) : Memory :=
  if seg < n ∧ digit ≤ 15 then m.write (seg + 1) (digitGlyph digit ||| dotBits dot) else m

/-- The body of SET_CHAR (R122). -/
def setCharCell (n seg sym : Nat) (dot : Bool) (m : Memory) : Memory :=
  if seg < n ∧ 40 ≤ sym ∧ sym ≤ 95 then m.write (seg + 1) (charGlyph sym ||| dotBits dot) else m

/-- The body of SET_RAW (R123). -/
def setRawCell (n seg : Nat) (raw : Byte) (m : Memory) : Memory :=
  if seg < n then m.write (seg + 1) raw else m

/-! ### State updates -/

/-- Replace the buffer. -/
def State.setBuf (s : State) (m : Memory) : State := { s with buf := m }

/-- `STATUS <- x` (R27). -/
def State.setStatus (s : State) (x : BusStatus) : State := { s with status := x }

/-- `N <- x` (R16). -/
def State.setSize (s : State) (x : BitVec 5) : State := { s with n := some x }

/-- The state of a refused request: the mark is set and nothing else of the spec's state changes (R17, R236). -/
def State.markRefused (s : State) (r : RefuseReason) : State := { s with refused := true, refusals := s.refusals ++ [r] }

/-- The state of a faulted request: the mark is set and nothing else changes (R17, R235, R260). -/
def State.markFaulted (s : State) : State := { s with faulted := true }

/-- Record bus events (R17, D29). -/
def State.record (s : State) (evs : List BusEvent) : State := { s with events := s.events ++ evs }

/-- One status is drawn from the transport: the next listed one is used up, or the next free draw. -/
def State.drawn (s : State) : State :=
  match s.transport with
  | _ :: rest => { s with transport := rest }
  | [] => { s with drawIndex := s.drawIndex + 1 }

/-! ### Outcomes (R17) -/

/-- `refuse(reason)` (R17, R236): the request ends there and the run goes on. -/
def refuse (r : RefuseReason) (s : State) : Result := .next (s.markRefused r)

/-- `fault(UnwrittenBuffer)` (R17, R235, R260): the request ends there with `FAULTED` set. -/
def faultUnwritten (s : State) : Result := .next s.markFaulted

/-- The precondition `N ≠ ⊥` of every request that reads `N` (R262). A number above 16 in the register would reach past the
buffer's cells, and the model stops there (never in a run). -/
def withSize (s : State) (body : Nat → Result) : Result :=
  match s.n with
  | none => refuse .notInitialised s
  | some n => if n.toNat ≤ maxSize then body n.toNat else .fault .noSuchCell

/-! ### The bus -/

/-- The status the next `transmit` returns (R78): what the host listed, or a free draw. -/
def State.nextStatus (s : State) : BusStatus :=
  match s.transport with
  | x :: _ => x
  | [] => Config.transmitStatus s.drawIndex

/-- The three events of one bus transaction, in order (R17, R78). -/
def transaction (bytes : List Byte) (t : Timeout) (x : BusStatus) : List BusEvent :=
  [.select true, .transmit bytes t x, .select false]

/-- `Emit(bytes, t)` (R17): the state after it. The status it returns is `s.nextStatus`. -/
def emit (bytes : List Byte) (t : Timeout) (s : State) : State := s.drawn.record (transaction bytes t s.nextStatus)

/-! ### The command encoder -/

/-- `Encode(K)` (R100). -/
def encodeCommand (k : Byte) : List Byte := [0x80#8 ||| (k >>> 3), k <<< 5]

/-- `SendCmd(K)` (R101): the state after it. The status it returns is `s.nextStatus`. -/
def sendCmd (k : Byte) (s : State) : State := emit (encodeCommand k) .tCmd s

/-- SendCmd of each code in order; the status is OK exactly when every transmit returned OK (R27). -/
def sendAll : List Byte → State → BusStatus × State
  | [], s => (.ok, s)
  | k :: rest, s => (bothOk s.nextStatus (sendAll rest (sendCmd k s)).1, (sendAll rest (sendCmd k s)).2)

/-- The `ab` bits of a bias command (R76). -/
def commonsCode : Commons → Byte
  | .two => 0#8
  | .three => 1#8
  | .four => 2#8

/-- The default code `K` of a command (R76): general knowledge, for the spec's test vectors only. No meaning reads it; meanings read
the OPEN `Config.cmdCode` (log entry 1). -/
def defaultCode : CommandName → Byte
  | .sysDis => 0x00#8
  | .sysEn => 0x01#8
  | .lcdOff => 0x02#8
  | .lcdOn => 0x03#8
  | .timerDis => 0x04#8
  | .wdtDis => 0x05#8
  | .timerEn => 0x06#8
  | .wdtEn => 0x07#8
  | .toneOff => 0x08#8
  | .toneOn => 0x09#8
  | .clrTimer => 0x0C#8
  | .clrWdt => 0x0E#8
  | .xtal32K => 0x14#8
  | .rc256K => 0x18#8
  | .ext256K => 0x1C#8
  | .biasHalf ab => 0x20#8 + 4#8 * commonsCode ab
  | .biasThird ab => 0x21#8 + 4#8 * commonsCode ab
  | .tone4K => 0x40#8
  | .tone2K => 0x60#8
  | .irqDis => 0x80#8
  | .irqEn => 0x88#8
  | .timebase k => 0xA0#8 + BitVec.ofNat 8 k.val
  | .test => 0xE0#8
  | .normal => 0xE3#8

/-- The nominal duration of a timeout label, in milliseconds (R12, R271). No rule reads it. -/
def nominalMs : Timeout → Nat
  | .tCmd => 100
  | .tShow => 500

/-! ### The frame shifter and the transmission of the buffer -/

/-- `w = (B[i-1] << 8) | B[i]`, then `(w >> 1) & 0xFF` (R150). -/
def shiftWindow (prev cur : Byte) : Byte := ((prev ++ cur) >>> 1).extractLsb' 0 8

/-- R150's loop over the cells after `prev`, each from the unshifted cell before it and its own unshifted value: the descending order
of the rule is what keeps `B[i-1]` unshifted. -/
def shiftTail (prev : Byte) : List Byte → List Byte
  | [] => []
  | cur :: rest => shiftWindow prev cur :: shiftTail cur rest

/-- `B[1] <- B[1] & 0x7F` on the cells from `B[1]` on (R150). -/
def clearAddressBit : List Byte → List Byte
  | [] => []
  | b :: rest => (b &&& 0x7F#8) :: rest

/-- `Shift` on the cells `B[0..N+1]` (R150). -/
def shiftImage : List Byte → List Byte
  | [] => []
  | header :: rest => 0xA0#8 :: clearAddressBit (shiftTail header rest)

/-- SHOW on the buffer `m` (R151): `s` is the state a fault leaves as it was (R260). -/
def showBuffer (n : Nat) (m : Memory) (s : State) : Result :=
  match m.load 0 (n + 2) with
  | none => faultUnwritten s
  | some cells => .next ((emit (shiftImage cells) .tShow (s.setBuf (m.store 0 (shiftImage cells)))).setStatus s.nextStatus)

/-- The skeleton of every renderer (R170): PREPARE, fill and overlays, SHOW. -/
def render (n : Nat) (fill : Memory → Memory) (s : State) : Result := showBuffer n (fill (prepare n s.buf)) s

end Sys2Proof.Machine
end

