-- ==== Sys2Proof/Machine/Lifecycle.lean ====
section
/-! DEFINITION. Configuration and lifecycle: INIT, CLEAR, POWER_ON, POWER_OFF (spec/44_configuration.md), and the reserved opcode
(R79). -/

namespace Sys2Proof.Machine

/-- The six codes INIT sends, in order (R210). -/
def initCodes : List Byte :=
  [Config.biasCode, Config.oscCode, Config.cmdCode .sysDis, Config.cmdCode .wdtDis, Config.cmdCode .sysEn, Config.cmdCode .lcdOn]

/-- INIT size (R210, R211). -/
def execInit (size : Byte) (s : State) : Result :=
  .next (((sendAll initCodes s).2.setSize (clampSize size)).setStatus (sendAll initCodes s).1)

/-- CLEAR (R214): PREPARE, then SHOW. -/
def execClear (s : State) : Result := withSize s fun n => render n id s

/-- POWER_ON (R212). -/
def execPowerOn (s : State) : Result := .next ((sendCmd (Config.cmdCode .lcdOn) s).setStatus s.nextStatus)

/-- POWER_OFF (R213). -/
def execPowerOff (s : State) : Result := .next ((sendCmd (Config.cmdCode .lcdOff) s).setStatus s.nextStatus)

/-- `OP = 0xF` (R79, R237: checked before anything else). -/
def execReserved (s : State) : Result := refuse .reservedOpcode s

end Sys2Proof.Machine
end

