-- ==== Sys2Proof/Machine/Renderers.lean ====
section
/-! DEFINITION. The renderer multiplexer (spec/43_renderers.md): each path's fill and overlays between PREPARE and SHOW. -/

namespace Sys2Proof.Machine

/-- OR a mask into the `count` positions from `p` upwards. -/
def orPositions (mask : Byte) : Nat → Nat → Memory → Memory
  | 0, _, m => m
  | count + 1, p, m => orPositions mask count (p + 1) (m.orCell p mask)

/-- `Battery(level)` (R175). -/
def batteryOverlay (n : Nat) (level : Byte) (m : Memory) : Memory := orPositions batMask (min (clampLevel level) n) 1 m

/-- The digit loop of R172: `fuel` positions are left, the next is `p`, and `mag` is what is left of the magnitude. -/
def decimalLoop (n : Nat) (neg suppress : Bool) : Nat → Nat → Nat → Memory → Memory
  | 0, _, _, m => m
  | fuel + 1, p, mag, m =>
    let m' := setDigitCell n (p - 1) (mag % 10) false m
    if mag / 10 = 0 then
      if neg then (if p + 1 ≤ n then m'.orCell (p + 1) minusPattern else m')
      else if suppress then m'
      else decimalLoop n neg suppress fuel (p + 1) (mag / 10) m'
    else decimalLoop n neg suppress fuel (p + 1) (mag / 10) m'

/-- The decimal point (R172, R174). -/
def decimalPoint (n decPoint : Nat) (m : Memory) : Memory :=
  if 0 < decPoint ∧ decPoint < n then m.orCell decPoint dotMask else m

/-- RENDER_DEC value, dec_point, suppress, battery (R172). -/
def execRenderDec (value : Word32) (decPoint : Byte) (suppress : Bool) (battery : Byte) (s : State) : Result :=
  withSize s fun n =>
    render n (fun m => batteryOverlay n battery (decimalPoint n (uint8 decPoint)
      (decimalLoop n (isNegative value) suppress n 1 (magnitude value) m))) s

/-- The nibble loop of R180. -/
def hexLoop (n : Nat) (suppress : Bool) : Nat → Nat → Nat → Memory → Memory
  | 0, _, _, m => m
  | fuel + 1, p, v, m =>
    let m' := setDigitCell n (p - 1) (v % 16) false m
    if v / 16 = 0 ∧ suppress = true then m' else hexLoop n suppress fuel (p + 1) (v / 16) m'

/-- RENDER_HEX value, suppress, battery (R180): `m & 0xF` and `m >> 4` are the remainder and the quotient by 16. -/
def execRenderHex (value : Word32) (suppress : Bool) (battery : Byte) (s : State) : Result :=
  withSize s fun n => render n (fun m => batteryOverlay n battery (hexLoop n suppress n 1 (uint32 value) m)) s

/-- The loop of R185 over the characters kept: the one with `j` characters after it goes to segment `j`. -/
def textLoop (n : Nat) : List Byte → Memory → Memory
  | [], m => m
  | c :: rest, m => textLoop n rest (setCharCell n rest.length (uint8 c) false m)

/-- RENDER_STR text, battery (R185). -/
def execRenderStr (text : List Byte) (battery : Byte) (s : State) : Result :=
  withSize s fun n => render n (fun m => batteryOverlay n battery (textLoop n (text.take n) m)) s

/-- RENDER_RAW bytes, count (R188). -/
def execRenderRaw (bytes : List Byte) (count : Nat) (s : State) : Result :=
  withSize s fun n =>
    if min count n ≤ bytes.length then render n (fun m => m.store 1 (bytes.take (min count n))) s
    else refuse .rawCountExceedsData s

/-- The four digits of the clock and date layout, position 1 first (R190, R191, R192). -/
def fourDigits (n : Nat) (lo hi : Byte) (m : Memory) : Memory :=
  setDigitCell n 3 (tens hi) false (setDigitCell n 2 (ones hi) false
    (setDigitCell n 1 (tens lo) false (setDigitCell n 0 (ones lo) false m)))

/-- RENDER_CLOCK hours, minutes, separator (R190). -/
def execRenderClock (hours minutes : Byte) (separator : Bool) (s : State) : Result :=
  withSize s fun n =>
    render n (fun m => if separator then (fourDigits n minutes hours m).orCell 1 dotMask else fourDigits n minutes hours m) s

/-- `lo` of R191: what goes to positions 1 and 2. -/
def dateLow (day month : Byte) : Byte := if Config.dateLayout = .dayHigh then month else day

/-- `hi` of R191: what goes to positions 3 and 4. -/
def dateHigh (day month : Byte) : Byte := if Config.dateLayout = .dayHigh then day else month

/-- RENDER_DATE day, month (R191): the dot is always ORed into position 3, where there is one. -/
def execRenderDate (day month : Byte) (s : State) : Result :=
  withSize s fun n =>
    render n (fun m =>
      if 3 ≤ n then (fourDigits n (dateLow day month) (dateHigh day month) m).orCell 3 dotMask
      else fourDigits n (dateLow day month) (dateHigh day month) m) s

end Sys2Proof.Machine
end

