-- ==== Sys2Proof/Machine/Setters.lean ====
section
/-! DEFINITION. PREPARE and the setters (spec/41_buffer_and_glyphs.md): no bus event, `STATUS` unchanged. -/

namespace Sys2Proof.Machine

/-- PREPARE (R124). -/
def execPrepare (s : State) : Result := withSize s fun n => .next (s.setBuf (prepare n s.buf))

/-- SET_DIGIT seg, digit, dot (R121). -/
def execSetDigit (seg digit : Byte) (dot : Bool) (s : State) : Result :=
  withSize s fun n => .next (s.setBuf (setDigitCell n (uint8 seg) (uint8 digit) dot s.buf))

/-- SET_CHAR seg, sym, dot (R122). -/
def execSetChar (seg sym : Byte) (dot : Bool) (s : State) : Result :=
  withSize s fun n => .next (s.setBuf (setCharCell n (uint8 seg) (uint8 sym) dot s.buf))

/-- SET_RAW seg, raw (R123). -/
def execSetRaw (seg raw : Byte) (s : State) : Result :=
  withSize s fun n => .next (s.setBuf (setRawCell n (uint8 seg) raw s.buf))

end Sys2Proof.Machine
end

