-- ==== Sys2Proof/Machine/Shifter.lean ====
section
/-! DEFINITION. SHOW (spec/42_frame_shifter.md). -/

namespace Sys2Proof.Machine

/-- SHOW (R151): the shift is in place, and whatever the transport answers. -/
def execShowFrame (s : State) : Result := withSize s fun n => showBuffer n s.buf s

end Sys2Proof.Machine
end

