-- ==== Sys2Proof/Machine/Wire.lean ====
section
/-! DEFINITION. The two wire frames of spec/opcode_table.json. The block emits them inside a request; no request carries one (R75,
R100), so no step runs these two on their own. What they do is the transaction they stand for (log entry 8). -/

namespace Sys2Proof.Machine

/-- WIRE_CMD: the transmission of one command (R73, R101). Flags written: none, the request that sends it folds its status. -/
def execWireCmd (k : Byte) (s : State) : Result := .next (sendCmd k s)

/-- WIRE_WRITE: the transmission of one display-write frame (R74, R151's Emit). -/
def execWireWrite (data : List Byte) (pad : BitVec 7) (s : State) : Result := .next (emit (writeFrame data pad) .tShow s)

end Sys2Proof.Machine
end

