-- ==== Sys2Proof/Machine/Dispatch.lean ====
section
/-! DEFINITION. One arm per instruction: the path selection of R171 and of the opcode map R71. -/

namespace Sys2Proof.Machine

def exec (i : Instr) (s : State) : Host.Outcome State Fault Refusal :=
  match i with
  | .init size => Sys2Proof.Machine.execInit size s
  | .clear => Sys2Proof.Machine.execClear s
  | .prepare => Sys2Proof.Machine.execPrepare s
  | .setDigit seg digit dot => Sys2Proof.Machine.execSetDigit seg digit dot s
  | .setChar seg sym dot => Sys2Proof.Machine.execSetChar seg sym dot s
  | .setRaw seg raw => Sys2Proof.Machine.execSetRaw seg raw s
  | .showFrame => Sys2Proof.Machine.execShowFrame s
  | .renderDec value decPoint suppress battery => Sys2Proof.Machine.execRenderDec value decPoint suppress battery s
  | .renderHex value suppress battery => Sys2Proof.Machine.execRenderHex value suppress battery s
  | .renderStr text battery => Sys2Proof.Machine.execRenderStr text battery s
  | .renderRaw bytes count => Sys2Proof.Machine.execRenderRaw bytes count s
  | .renderClock hours minutes separator => Sys2Proof.Machine.execRenderClock hours minutes separator s
  | .renderDate day month => Sys2Proof.Machine.execRenderDate day month s
  | .powerOn => Sys2Proof.Machine.execPowerOn s
  | .powerOff => Sys2Proof.Machine.execPowerOff s
  | .reserved => Sys2Proof.Machine.execReserved s
  | .wireCmd k => Sys2Proof.Machine.execWireCmd k s
  | .wireWrite data pad => Sys2Proof.Machine.execWireWrite data pad s

end Sys2Proof.Machine
end

