-- ==== Sys2Proof/Machine/Step.lean ====
section
/-! DEFINITION. One step: the next request the host issues, run from start to finish (R3, R57, R58). -/

namespace Sys2Proof.Machine

/-- The request that waits is taken and run, atomically (R57). With no request the block stands still: it fetches nothing (R22,
R261), log entry 4. -/
def step (s : State) : Host.Outcome State Fault Refusal :=
  match s.requests with
  | [] => .next s
  | r :: rest => exec (decodeRequest r) { s with requests := rest }

/-- `s` with the request of a word of spec/opcode_table.json as the next one the host issues. A wire frame is no request (R75, R77):
`s` is left as it is. -/
def State.withFetchWord (s : State) (nbits w : Nat) : State :=
  match tableCode nbits w with
  | .request r => { s with requests := r :: s.requests }
  | .frame _ => s

end Sys2Proof.Machine
end

