-- ==== Sys2Proof/Safety.lean ====
section
/-! DEFINITION. What claims are stated in: the invariant of every run, when a run's state is final, what a frame on the bus looks
like, and the display patterns of each request in closed form, with no loop. -/

namespace Sys2Proof.Machine

/-- `N` holds `n`, an integer in `[2,16]` (R21). -/
def State.hasSize (s : State) (n : Nat) : Prop :=
  s.n = some (BitVec.ofNat 5 n) ∧ minSize ≤ n ∧ n ≤ maxSize

/-- Once set, `N` is in `[2,16]` (R21). -/
def State.sizeOk (s : State) : Prop := s.n = none ∨ ∃ n, s.hasSize n

/-- The header cell is unwritten, zeroed by PREPARE or set by SHOW: no setter reaches it (R52, R123). -/
def State.headerOk (s : State) : Prop :=
  s.buf.read 0 = none ∨ s.buf.read 0 = some 0#8 ∨ s.buf.read 0 = some 0xA0#8

/-- A frame the block may emit, under its timeout label (R73, R74, R77): two bytes `100 K 00000`, or the bytes of a write frame
with marker `101` and a 6-bit address 0, for an `N` in `[2,16]`. -/
def legalFrame (bytes : List Byte) : Timeout → Bool
  | .tCmd =>
    match bytes with
    | [f0, f1] => f0.extractLsb' 5 3 == 0b100#3 && f1.extractLsb' 0 5 == 0#5
    | _ => false
  | .tShow =>
    match bytes with
    | f0 :: f1 :: rest => f0 == 0xA0#8 && f1.extractLsb' 7 1 == 0#1 && decide (minSize ≤ rest.length) && decide (rest.length ≤ maxSize)
    | _ => false

/-- A list of bus events is a list of whole transactions, each of a legal frame (R17, R77, R78). -/
def legalEvents : List BusEvent → Bool
  | [] => true
  | .select true :: .transmit bytes t _ :: .select false :: rest => legalFrame bytes t && legalEvents rest
  | _ => false

/-- The statuses of the transmits among some events. -/
def statusesOf : List BusEvent → List BusStatus
  | [] => []
  | .transmit _ _ x :: rest => x :: statusesOf rest
  | .select _ :: rest => statusesOf rest

/-- The events without the statuses: what the block sends. -/
def sentOf : List BusEvent → List (Option Bool × Option (List Byte × Timeout))
  | [] => []
  | .transmit bytes t _ :: rest => (none, some (bytes, t)) :: sentOf rest
  | .select active :: rest => (some active, none) :: sentOf rest

/-- What holds of every state a run reaches: `N` is unset or in `[2,16]` (R21), the buffer has its canonical form, the header
cell is legal (R52), the mark `REFUSED` and the record of refusals agree (R236), and the bus has seen only whole transactions of
legal frames (R77, R78). -/
def State.Inv (s : State) : Prop :=
  s.sizeOk ∧ s.buf.wf ∧ s.headerOk ∧ (s.refused = true ↔ s.refusals ≠ []) ∧ legalEvents s.events = true

/-- A state a run may end in: nothing is left to issue, and no request has faulted ("a faulted state is never final", R235). -/
def State.final (s : State) : Prop := s.requests = [] ∧ s.faulted = false

/-- The status of the `k`-th transmit from here on (0 is the next one). -/
def State.answer (s : State) (k : Nat) : BusStatus :=
  match s.transport[k]? with
  | some x => x
  | none => Config.transmitStatus (s.drawIndex + (k - s.transport.length))

/-- The state after `k` statuses were drawn. -/
def State.afterDraws (s : State) (k : Nat) : State :=
  { s with transport := s.transport.drop k, drawIndex := s.drawIndex + (k - s.transport.length) }

/-- OK exactly when every one of the statuses is (R27). -/
def foldStatus (xs : List BusStatus) : BusStatus := if xs.all (· == .ok) then .ok else .fail

/-! ### The wire image (R152, R153) -/

/-- Byte `k` of the frame of the cells `p` (R153): byte 0 is the header, every other byte is the last bit of the pattern before it
(0 in byte 1, the 6th address bit) and the top 7 bits of its own. -/
def wireByte (p : Nat → Byte) : Nat → Byte
  | 0 => 0xA0#8
  | 1 => 0#1 ++ (p 1).extractLsb' 1 7
  | k + 2 => (p (k + 1)).extractLsb' 0 1 ++ (p (k + 2)).extractLsb' 1 7

/-- R150's window: `w = (B[i-1] << 8) | B[i]`, then `(w >> 1) & 0xFF`. -/
def windowByte (prev cur : Byte) : Byte := ((prev.setWidth 16 <<< 8 ||| cur.setWidth 16) >>> 1).setWidth 8

/-- Cell `k` after Shift of the cells `p` (R150), each from unshifted cells. -/
def shiftedCell (p : Nat → Byte) : Nat → Byte
  | 0 => 0xA0#8
  | 1 => windowByte (p 0) (p 1) &&& 0x7F#8
  | k + 2 => windowByte (p (k + 1)) (p (k + 2))

/-- The `N + 2` bytes of a frame whose byte `k` is `q k`. -/
def frameOf (n : Nat) (q : Nat → Byte) : List Byte := (List.range (n + 2)).map q

/-- `t` is `s` after the frame `q` was left in the buffer and sent, `N` being `n` (R151): cells `0..N+1` hold the frame and the
other cells what they held; one transaction of that frame is recorded under `T_SHOW`, with the status drawn for it; `STATUS` is
that status; nothing else differs. -/
def State.sentAs (s : State) (n : Nat) (q : Nat → Byte) (t : State) : Prop :=
  (∀ k, k ≤ n + 1 → t.buf.read k = some (q k)) ∧
  (∀ k, n + 1 < k → t.buf.read k = s.buf.read k) ∧
  t = { s.afterDraws 1 with
        buf := t.buf
        status := s.answer 0
        events := s.events ++ transaction (frameOf n q) .tShow (s.answer 0) }

/-- `t` is `s` after a SHOW of the logical cells `p` (R151, R153). -/
def State.shown (s : State) (n : Nat) (p : Nat → Byte) (t : State) : Prop := s.sentAs n (wireByte p) t

/-- The bits of bytes in the order sent: byte 0 first, bit 7 of each byte first (R54). -/
def bitStream : List Byte → List Bool
  | [] => []
  | b :: rest =>
    [b.getLsbD 7, b.getLsbD 6, b.getLsbD 5, b.getLsbD 4, b.getLsbD 3, b.getLsbD 2, b.getLsbD 1, b.getLsbD 0] ++ bitStream rest

/-! ### The display patterns of each request, position by position -/

/-- The glyph of a digit, or a blank position where the setter does nothing (R121, R192). -/
def digitPattern (d : Nat) : Byte := if d ≤ 15 then digitGlyph d else 0#8

/-- The glyph of a character, or a blank position where the setter does nothing (R122, R185). -/
def charPattern (c : Nat) : Byte := if 40 ≤ c ∧ c ≤ 95 then charGlyph c else 0#8

/-- What the battery overlay ORs into position `p` (R175). -/
def batteryBits (level : Byte) (p : Nat) : Byte := if p ≤ min level.toNat 3 then 0x80#8 else 0#8

/-- Whether a number holds a digit at position `p` in a base: position 1 always does (D5). -/
def hasDigit (base m p : Nat) : Bool := p == 1 || decide (base ^ (p - 1) ≤ m)

/-- The digit or sign glyph at position `p` of RENDER_DEC (R172): a digit where the magnitude has one, or everywhere for a
non-negative number with the zeros kept; the minus pattern at the first position above a negative number's digits. -/
def decimalGlyph (value : Word32) (suppress : Bool) (p : Nat) : Byte :=
  let m := value.toInt.natAbs
  if hasDigit 10 m p || (decide (0 ≤ value.toInt) && !suppress) then digitGlyph (m / 10 ^ (p - 1) % 10)
  else if value.toInt < 0 ∧ hasDigit 10 m (p - 1) = true then minusPattern
  else 0#8

/-- The logical cells of RENDER_DEC (R172, R174, R175). -/
def decimalPattern (value : Word32) (decPoint : Byte) (suppress : Bool) (battery : Byte) (n p : Nat) : Byte :=
  if 1 ≤ p ∧ p ≤ n then
    decimalGlyph value suppress p ||| (if p = decPoint.toNat ∧ p < n then dotMask else 0#8) ||| batteryBits battery p
  else 0#8

/-- The logical cells of RENDER_HEX (R180, R175). -/
def hexPattern (value : Word32) (suppress : Bool) (battery : Byte) (n p : Nat) : Byte :=
  if 1 ≤ p ∧ p ≤ n then
    (if hasDigit 16 value.toNat p || !suppress then digitGlyph (value.toNat / 16 ^ (p - 1) % 16) else 0#8) ||| batteryBits battery p
  else 0#8

/-- The logical cells of RENDER_STR (R185, R175): position `p` shows `text[k - p]`, `k` being the number of characters kept. -/
def textPattern (text : List Byte) (battery : Byte) (n p : Nat) : Byte :=
  if 1 ≤ p ∧ p ≤ n then
    (if p ≤ min text.length n then charPattern (text.getD (min text.length n - p) 0#8).toNat else 0#8) ||| batteryBits battery p
  else 0#8

/-- The logical cells of RENDER_RAW (R188). -/
def rawPattern (bytes : List Byte) (count n p : Nat) : Byte :=
  if 1 ≤ p ∧ p ≤ min count n then bytes.getD (p - 1) 0#8 else 0#8

/-- The digit at position `p` of the four-digit layout of `lo` and `hi` (R190, R191, R192). -/
def fourDigitPattern (lo hi : Byte) (n p : Nat) : Byte :=
  if n < p then 0#8
  else if p = 1 then digitPattern (lo.toNat % 10)
  else if p = 2 then digitPattern (lo.toNat / 10)
  else if p = 3 then digitPattern (hi.toNat % 10)
  else if p = 4 then digitPattern (hi.toNat / 10)
  else 0#8

/-- The logical cells of RENDER_CLOCK (R190). -/
def clockPattern (hours minutes : Byte) (separator : Bool) (n p : Nat) : Byte :=
  fourDigitPattern minutes hours n p ||| (if p = 1 ∧ separator = true then dotMask else 0#8)

/-- The logical cells of RENDER_DATE under a layout (R191). -/
def datePattern (layout : DateLayout) (day month : Byte) (n p : Nat) : Byte :=
  (match layout with
    | .dayHigh => fourDigitPattern month day n p
    | .monthHigh => fourDigitPattern day month n p) ||| (if p = 3 ∧ 3 ≤ n then dotMask else 0#8)

end Sys2Proof.Machine
end

