-- ==== Sys2Proof/Certificates/Slice0/Obligations.lean ====
section
/-! DEFINITION. The statements for the provers. Each docstring names the rules it formalises and, where it rests on one, the model's
own choice (log entry). -/

open Sys2Proof Sys2Proof.Machine

/-! ### Encoding -/

/-- R71: the opcode map, each operand from its own port. -/
def Obligations.OpcodeMapSelectsOperation : Prop :=
  ∀ r : Request,
    (r.op = 0x0#4 → decode (.request r) = .ok (.init r.size)) ∧
    (r.op = 0x1#4 → decode (.request r) = .ok .clear) ∧
    (r.op = 0x2#4 → decode (.request r) = .ok .prepare) ∧
    (r.op = 0x3#4 → decode (.request r) = .ok (.setDigit r.seg r.digit (r.dot == 1#1))) ∧
    (r.op = 0x4#4 → decode (.request r) = .ok (.setChar r.seg r.sym (r.dot == 1#1))) ∧
    (r.op = 0x5#4 → decode (.request r) = .ok (.setRaw r.seg r.raw)) ∧
    (r.op = 0x6#4 → decode (.request r) = .ok .showFrame) ∧
    (r.op = 0x7#4 → decode (.request r) = .ok (.renderDec r.value r.decPoint (r.suppress == 1#1) r.battery)) ∧
    (r.op = 0x8#4 → decode (.request r) = .ok (.renderHex r.value (r.suppress == 1#1) r.battery)) ∧
    (r.op = 0x9#4 → decode (.request r) = .ok (.renderStr r.text r.battery)) ∧
    (r.op = 0xA#4 → decode (.request r) = .ok (.renderRaw r.bytes r.count)) ∧
    (r.op = 0xB#4 → decode (.request r) = .ok (.renderClock r.hours r.minutes (r.separator == 1#1))) ∧
    (r.op = 0xC#4 → decode (.request r) = .ok (.renderDate r.day r.month)) ∧
    (r.op = 0xD#4 → decode (.request r) = .ok .powerOn) ∧
    (r.op = 0xE#4 → decode (.request r) = .ok .powerOff) ∧
    (r.op = 0xF#4 → decode (.request r) = .ok .reserved)

/-- R70, R72, R75: every request decodes, whatever its ports hold, and to an operation, never to a wire frame. -/
def Obligations.EveryRequestDecodes : Prop :=
  ∀ r : Request, ∃ i, decode (.request r) = .ok i ∧ i.isRequest = true

/-- R70 to R74, R77: decoding what the encoder gives for a well-formed instruction gives the instruction back. -/
def Obligations.DecodeEncodeRoundTrip : Prop :=
  ∀ i : Instr, i.wellFormed = true → decode (encode i) = .ok i

/-- Words of the opcode table, read from its match and mask: a few rows. That the byte sent first is bits 15..8 of a 16-bit word, and
that the write frame `0xA07F` goes on with zeros up to 18 bytes (so 16 patterns, the last 15 of them 0, and padding 0), is the
model's choice: log entry 15, DEDUCED. -/
def Obligations.TableWordsDecode : Prop :=
  decodeTableWord 8 0x0 = some (.init 0#8) ∧
  decodeTableWord 8 0x5 = some (.setRaw 0#8 0#8) ∧
  decodeTableWord 8 0xB = some (.renderClock 0#8 0#8 false) ∧
  decodeTableWord 8 0xF = some .reserved ∧
  decodeTableWord 16 0x8520 = some (.wireCmd 0x29#8) ∧
  decodeTableWord 16 0xA07F = some (.wireWrite (0xFE#8 :: List.replicate 15 0#8) 0#7)

/-- R73: the two bytes of a command frame by the formula, and the fields of its 16 bits. -/
def Obligations.CommandFrameLayout : Prop :=
  ∀ k : Byte, ∃ f0 f1 : Byte, encodeCommand k = [f0, f1] ∧
    f0 = 0x80#8 ||| (k >>> 3) ∧ f1 = (k <<< 5) &&& 0xFF#8 ∧
    (f0 ++ f1 : BitVec 16).extractLsb' 13 3 = 0b100#3 ∧
    (f0 ++ f1 : BitVec 16).extractLsb' 5 8 = k ∧
    (f0 ++ f1 : BitVec 16).extractLsb' 4 1 = 0#1 ∧
    (f0 ++ f1 : BitVec 16).extractLsb' 0 4 = 0#4

/-! ### The machine as a whole -/

/-- R57, R70, R81: a step takes the next request and is exec of what it decodes to. With no request a step changes nothing (the
model's choice, log entry 4). -/
def Obligations.StepRunsNextRequest : Prop :=
  (∀ (s : State) (r : Request) (rest : List Request) (i : Instr),
    s.requests = r :: rest → decode (.request r) = .ok i → step s = exec i { s with requests := rest }) ∧
  ∀ s : State, s.requests = [] → step s = .next s

/-- R28: the reset values, and nothing sent. -/
def Obligations.ResetValues : Prop :=
  State.reset.n = none ∧ (∀ a, State.reset.buf.read a = none) ∧ State.reset.status = .ok ∧
  State.reset.faulted = false ∧ State.reset.refused = false ∧ State.reset.events = []

/-- The invariant holds at reset (R28). -/
def Obligations.ResetMeetsInvariant : Prop := State.reset.Inv

/-- From every state that meets the invariant a step leads to one that meets it: `N` in `[2,16]` (R21), the buffer's canonical form,
a header cell that only PREPARE and SHOW write (R52), the mark `REFUSED` agreeing with its record (R236, log entry 5), whole bus
transactions of legal frames (R77, R78). -/
def Obligations.StepKeepsInvariant : Prop :=
  ∀ s t : State, s.Inv → step s = .next t → t.Inv

/-- No step stops where `N` is unset or in `[2,16]`: every request is legal at any time (R241), refused and faulted requests
included (R236, P5). -/
def Obligations.StepNeverStops : Prop :=
  ∀ s : State, s.sizeOk → ∃ t, step s = .next t

/-- R235, R236, D29: no step clears a mark, takes back a recorded event or a recorded refusal. -/
def Obligations.StepKeepsMarksAndRecord : Prop :=
  ∀ s t : State, step s = .next t →
    (s.faulted = true → t.faulted = true) ∧ (s.refused = true → t.refused = true) ∧
    s.events <+: t.events ∧ s.refusals <+: t.refusals

/-- R21: only INIT writes `N`. -/
def Obligations.OnlyInitWritesSize : Prop :=
  ∀ (i : Instr) (s t : State), (∀ size, i ≠ .init size) → exec i s = .next t → t.n = s.n

/-- R23, R52: no request writes a cell past `B[N+1]`, and before the first INIT none writes any cell. -/
def Obligations.CellsPastTrailerUntouched : Prop :=
  ∀ (i : Instr) (s t : State), exec i s = .next t →
    (s.n = none → t.buf = s.buf) ∧
    ∀ n : BitVec 5, s.n = some n → ∀ a, n.toNat + 1 < a → t.buf.read a = s.buf.read a

/-- R235: only SHOW sets the mark `FAULTED`: the renderers and CLEAR prepare first (R263), so their SHOW finds every cell
written. -/
def Obligations.OnlyShowFaults : Prop :=
  ∀ (i : Instr) (s t : State), exec i s = .next t → t.faulted ≠ s.faulted → i = .showFrame

/-- R27: the status folds the transmits of the request, a request that emits nothing leaves it, no other state depends on it,
and it is reset to OK. -/
def Obligations.StatusFoldsTransmits : Prop :=
  State.reset.status = .ok ∧
  (∀ (i : Instr) (s t : State), i.isRequest = true → exec i s = .next t →
    ∃ evs, t.events = s.events ++ evs ∧
      (statusesOf evs = [] → t.status = s.status) ∧
      (statusesOf evs ≠ [] → (t.status = .ok ↔ ∀ x ∈ statusesOf evs, x = .ok))) ∧
  ∀ (i : Instr) (s t : State) (x : BusStatus), exec i s = .next t →
    ∃ y, exec i { s with status := x } = .next { t with status := y }

/-- R233: two runs of an instruction that differ only in what the transport answers send the same bytes under the same selects and
leave the same `N`, buffer, marks and pending requests. -/
def Obligations.TransportStatusChangesNothingElse : Prop :=
  ∀ (i : Instr) (s t : State) (answers : List BusStatus) (index : Nat), exec i s = .next t →
    ∃ t', exec i { s with transport := answers, drawIndex := index } = .next t' ∧
      t'.n = t.n ∧ t'.buf = t.buf ∧ t'.faulted = t.faulted ∧ t'.refused = t.refused ∧ t'.refusals = t.refusals ∧
      t'.requests = t.requests ∧ sentOf t'.events = sentOf t.events

/-- R77, R78: what a request puts on the bus is a list of whole transactions, each of a command frame (`100`, two bytes) or of a
display-write frame (`101`, address 0, `N + 2` bytes). -/
def Obligations.RequestsEmitWholeLegalFrames : Prop :=
  ∀ (i : Instr) (s t : State), i.isRequest = true → s.sizeOk → exec i s = .next t →
    ∃ evs, t.events = s.events ++ evs ∧ legalEvents evs = true

/-! ### Refusals -/

/-- R262: before the first INIT every request that reads `N` is refused, with nothing but the mark changed, and INIT, POWER_ON and
POWER_OFF are not refused at any time. -/
def Obligations.RequestsBeforeInitRefused : Prop :=
  (∀ (i : Instr) (s : State), i.needsSize = true → s.n = none →
    exec i s = .next { s with refused := true, refusals := s.refusals ++ [.notInitialised] }) ∧
  ∀ (i : Instr) (s : State), ((∃ size, i = .init size) ∨ i = .powerOn ∨ i = .powerOff) →
    ∃ t, exec i s = .next t ∧ t.refused = s.refused ∧ t.refusals = s.refusals

/-- R79: `OP = 0xF` is refused in every state, before anything else (R237); no event occurs. -/
def Obligations.ReservedOpcodeRefused : Prop :=
  ∀ (r : Request) (s : State), r.op = 0xF#4 →
    decode (.request r) = .ok .reserved ∧
    exec .reserved s = .next { s with refused := true, refusals := s.refusals ++ [.reservedOpcode] }

/-! ### Configuration and lifecycle -/

/-- R210, R211: INIT sends six command frames in order, sets `N` to the clamped size and folds the six statuses; the buffer and
everything else stay. -/
def Obligations.InitSendsSixCommandsAndSetsSize : Prop :=
  ∀ (size : Byte) (s : State),
    exec (.init size) s = .next
      { s.afterDraws 6 with
        n := some (BitVec.ofNat 5 (max 2 (min 16 size.toNat)))
        status := foldStatus [s.answer 0, s.answer 1, s.answer 2, s.answer 3, s.answer 4, s.answer 5]
        events := s.events ++
          transaction (encodeCommand Config.biasCode) .tCmd (s.answer 0) ++
          transaction (encodeCommand Config.oscCode) .tCmd (s.answer 1) ++
          transaction (encodeCommand (Config.cmdCode .sysDis)) .tCmd (s.answer 2) ++
          transaction (encodeCommand (Config.cmdCode .wdtDis)) .tCmd (s.answer 3) ++
          transaction (encodeCommand (Config.cmdCode .sysEn)) .tCmd (s.answer 4) ++
          transaction (encodeCommand (Config.cmdCode .lcdOn)) .tCmd (s.answer 5) }

/-- R211: 0 and 1 give 2, 2 to 16 stay, 17 to 255 give 16. -/
def Obligations.InitClampsSize : Prop :=
  ∀ (size : Byte) (s : State), ∃ t, exec (.init size) s = .next t ∧
    t.hasSize (if size.toNat < 2 then 2 else if size.toNat ≤ 16 then size.toNat else 16)

/-- R212: POWER_ON sends the LCD ON command and folds its status; nothing else changes. -/
def Obligations.PowerOnSendsLcdOn : Prop :=
  ∀ s : State, exec .powerOn s = .next
    { s.afterDraws 1 with
      status := s.answer 0
      events := s.events ++ transaction (encodeCommand (Config.cmdCode .lcdOn)) .tCmd (s.answer 0) }

/-- R213: POWER_OFF sends the LCD OFF command and folds its status; nothing else changes. -/
def Obligations.PowerOffSendsLcdOff : Prop :=
  ∀ s : State, exec .powerOff s = .next
    { s.afterDraws 1 with
      status := s.answer 0
      events := s.events ++ transaction (encodeCommand (Config.cmdCode .lcdOff)) .tCmd (s.answer 0) }

/-- R214: CLEAR sends a blank frame and leaves it in the buffer. -/
def Obligations.ClearSendsBlankFrame : Prop :=
  ∀ s : State,
    (s.n = none → exec .clear s = .next { s with refused := true, refusals := s.refusals ++ [.notInitialised] }) ∧
    ∀ n, s.hasSize n → ∃ t, exec .clear s = .next t ∧ s.sentAs n (fun k => if k = 0 then 0xA0#8 else 0#8) t

/-- R81, R214: the effect of CLEAR equals PREPARE followed by SHOW. -/
def Obligations.ClearIsPrepareThenShow : Prop :=
  ∀ (s : State) (n : Nat), s.hasSize n → ∃ t u, exec .prepare s = .next t ∧ exec .showFrame t = .next u ∧ exec .clear s = .next u

/-! ### The buffer and the setters -/

/-- R124: PREPARE zeroes cells `0..N+1` and changes nothing else. -/
def Obligations.PrepareZeroesBuffer : Prop :=
  ∀ s : State,
    (s.n = none → exec .prepare s = .next { s with refused := true, refusals := s.refusals ++ [.notInitialised] }) ∧
    ∀ n, s.hasSize n → ∃ t, exec .prepare s = .next t ∧
      (∀ a, t.buf.read a = if a ≤ n + 1 then some 0#8 else s.buf.read a) ∧ t = { s with buf := t.buf }

/-- R121: SET_DIGIT assigns one position, or does nothing. -/
def Obligations.SetDigitWritesPosition : Prop :=
  ∀ (seg digit : Byte) (dot : Bool) (s : State),
    (s.n = none →
      exec (.setDigit seg digit dot) s = .next { s with refused := true, refusals := s.refusals ++ [.notInitialised] }) ∧
    ∀ n, s.hasSize n →
      if seg.toNat < n ∧ digit.toNat ≤ 15 then
        ∃ t, exec (.setDigit seg digit dot) s = .next t ∧
          (∀ a, t.buf.read a = if a = seg.toNat + 1 then some (digitGlyph digit.toNat ||| (if dot then dotMask else 0#8))
            else s.buf.read a) ∧
          t = { s with buf := t.buf }
      else exec (.setDigit seg digit dot) s = .next s

/-- R122: SET_CHAR assigns one position, or does nothing. -/
def Obligations.SetCharWritesPosition : Prop :=
  ∀ (seg sym : Byte) (dot : Bool) (s : State),
    (s.n = none →
      exec (.setChar seg sym dot) s = .next { s with refused := true, refusals := s.refusals ++ [.notInitialised] }) ∧
    ∀ n, s.hasSize n →
      if seg.toNat < n ∧ 40 ≤ sym.toNat ∧ sym.toNat ≤ 95 then
        ∃ t, exec (.setChar seg sym dot) s = .next t ∧
          (∀ a, t.buf.read a = if a = seg.toNat + 1 then some (charGlyph sym.toNat ||| (if dot then dotMask else 0#8))
            else s.buf.read a) ∧
          t = { s with buf := t.buf }
      else exec (.setChar seg sym dot) s = .next s

/-- R123: SET_RAW assigns one position, or does nothing. -/
def Obligations.SetRawWritesPosition : Prop :=
  ∀ (seg raw : Byte) (s : State),
    (s.n = none → exec (.setRaw seg raw) s = .next { s with refused := true, refusals := s.refusals ++ [.notInitialised] }) ∧
    ∀ n, s.hasSize n →
      if seg.toNat < n then
        ∃ t, exec (.setRaw seg raw) s = .next t ∧
          (∀ a, t.buf.read a = if a = seg.toNat + 1 then some raw else s.buf.read a) ∧ t = { s with buf := t.buf }
      else exec (.setRaw seg raw) s = .next s

/-- R120: a setter with an operand out of range changes nothing at all. -/
def Obligations.OutOfRangeSettersDoNothing : Prop :=
  ∀ (s : State) (n : Nat) (seg x : Byte) (dot : Bool), s.hasSize n →
    ((n ≤ seg.toNat ∨ 15 < x.toNat) → exec (.setDigit seg x dot) s = .next s) ∧
    ((n ≤ seg.toNat ∨ x.toNat < 40 ∨ 95 < x.toNat) → exec (.setChar seg x dot) s = .next s) ∧
    (n ≤ seg.toNat → exec (.setRaw seg x) s = .next s)

/-- R57: every setter is idempotent, once `N` is set. -/
def Obligations.SettersAreIdempotent : Prop :=
  ∀ (i : Instr) (s : State) (n : Nat), s.hasSize n →
    ((∃ seg digit dot, i = .setDigit seg digit dot) ∨ (∃ seg sym dot, i = .setChar seg sym dot) ∨ (∃ seg raw, i = .setRaw seg raw)) →
    ∃ t, exec i s = .next t ∧ exec i t = .next t

/-- R123: no setter reaches the header `B[0]` or the trailer `B[N+1]`. -/
def Obligations.SettersMissHeaderAndTrailer : Prop :=
  ∀ (i : Instr) (s : State) (n : Nat), s.hasSize n →
    ((∃ seg digit dot, i = .setDigit seg digit dot) ∨ (∃ seg sym dot, i = .setChar seg sym dot) ∨ (∃ seg raw, i = .setRaw seg raw)) →
    ∃ t, exec i s = .next t ∧ t.buf.read 0 = s.buf.read 0 ∧ t.buf.read (n + 1) = s.buf.read (n + 1)

/-! ### SHOW -/

/-- R150, R151: SHOW is refused before INIT, sets `FAULTED` and nothing else where a cell in use is unwritten, and otherwise leaves the
shifted cells in the buffer and sends them. -/
def Obligations.ShowShiftsAndTransmits : Prop :=
  ∀ s : State,
    (s.n = none → exec .showFrame s = .next { s with refused := true, refusals := s.refusals ++ [.notInitialised] }) ∧
    (∀ n, s.hasSize n → (∃ k, k ≤ n + 1 ∧ s.buf.read k = none) → exec .showFrame s = .next { s with faulted := true }) ∧
    ∀ (n : Nat) (p : Nat → Byte), s.hasSize n → (∀ k, k ≤ n + 1 → s.buf.read k = some (p k)) →
      ∃ t, exec .showFrame s = .next t ∧ s.sentAs n (shiftedCell p) t

/-- R153: the wire form after SHOW, byte by byte. -/
def Obligations.ShowLeavesWireForm : Prop :=
  ∀ (s : State) (n : Nat) (p : Nat → Byte), s.hasSize n → (∀ k, k ≤ n + 1 → s.buf.read k = some (p k)) →
    ∃ t, exec .showFrame s = .next t ∧ s.shown n p t

/-- R74, R150, R151: the stream SHOW sends is the marker `101`, a 6-bit address 0, the `8N` data bits in position order, and 7 padding
bits, which are 0 when the trailer was 0. That they are the top 7 bits of the trailer, for any trailer, is R152, which the spec marks
as its own derivation from R150. -/
def Obligations.ShowSendsWriteFrameStream : Prop :=
  ∀ (s : State) (n : Nat) (p : Nat → Byte), s.hasSize n → (∀ k, k ≤ n + 1 → s.buf.read k = some (p k)) →
    ∃ t bytes pad, exec .showFrame s = .next t ∧
      t.events = s.events ++ transaction bytes .tShow (s.answer 0) ∧ bytes.length = n + 2 ∧
      bitStream bytes =
        [true, false, true] ++ List.replicate 6 false ++ bitStream ((List.range n).map fun k => p (k + 1)) ++ pad ∧
      pad = (bitStream [p (n + 1)]).take 7 ∧ (p (n + 1) = 0#8 → pad = List.replicate 7 false)

/-- R266: a second SHOW shifts the wire image again: the data bytes the chip then receives are the first frame's bytes. -/
def Obligations.RepeatedShowShiftsWireImage : Prop :=
  ∀ (s : State) (n : Nat) (p : Nat → Byte), s.hasSize n → (∀ k, k ≤ n + 1 → s.buf.read k = some (p k)) →
    ∃ t u, exec .showFrame s = .next t ∧ exec .showFrame t = .next u ∧ t.shown n (wireByte p) u

/-- R263, V96: after the first INIT a SHOW with nothing prepared faults, and sends nothing. -/
def Obligations.ShowAfterInitAloneFaults : Prop :=
  ∀ (size : Byte) (s : State), (∀ a, s.buf.read a = none) →
    ∃ t, exec (.init size) s = .next t ∧ exec .showFrame t = .next { t with faulted := true }

/-! ### The renderers -/

/-- R172, R173, R174: RENDER_DEC. -/
def Obligations.RenderDecShowsDecimal : Prop :=
  ∀ (value : Word32) (decPoint : Byte) (suppress : Bool) (battery : Byte) (s : State),
    (s.n = none → exec (.renderDec value decPoint suppress battery) s =
      .next { s with refused := true, refusals := s.refusals ++ [.notInitialised] }) ∧
    ∀ n, s.hasSize n → ∃ t, exec (.renderDec value decPoint suppress battery) s = .next t ∧
      s.shown n (decimalPattern value decPoint suppress battery n) t

/-- R180: RENDER_HEX. -/
def Obligations.RenderHexShowsNibbles : Prop :=
  ∀ (value : Word32) (suppress : Bool) (battery : Byte) (s : State),
    (s.n = none → exec (.renderHex value suppress battery) s =
      .next { s with refused := true, refusals := s.refusals ++ [.notInitialised] }) ∧
    ∀ n, s.hasSize n → ∃ t, exec (.renderHex value suppress battery) s = .next t ∧ s.shown n (hexPattern value suppress battery n) t

/-- R185: RENDER_STR. -/
def Obligations.RenderStrShowsText : Prop :=
  ∀ (text : List Byte) (battery : Byte) (s : State),
    (s.n = none → exec (.renderStr text battery) s =
      .next { s with refused := true, refusals := s.refusals ++ [.notInitialised] }) ∧
    ∀ n, s.hasSize n → ∃ t, exec (.renderStr text battery) s = .next t ∧ s.shown n (textPattern text battery n) t

/-- R188: RENDER_RAW, refused where the count asks for more bytes than there are. -/
def Obligations.RenderRawCopiesBytes : Prop :=
  ∀ (bytes : List Byte) (count : Nat) (s : State),
    (s.n = none → exec (.renderRaw bytes count) s =
      .next { s with refused := true, refusals := s.refusals ++ [.notInitialised] }) ∧
    ∀ n, s.hasSize n →
      if min count n ≤ bytes.length then
        ∃ t, exec (.renderRaw bytes count) s = .next t ∧ s.shown n (rawPattern bytes count n) t
      else exec (.renderRaw bytes count) s = .next { s with refused := true, refusals := s.refusals ++ [.rawCountExceedsData] }

/-- R190, R192: RENDER_CLOCK. -/
def Obligations.RenderClockShowsTime : Prop :=
  ∀ (hours minutes : Byte) (separator : Bool) (s : State),
    (s.n = none → exec (.renderClock hours minutes separator) s =
      .next { s with refused := true, refusals := s.refusals ++ [.notInitialised] }) ∧
    ∀ n, s.hasSize n → ∃ t, exec (.renderClock hours minutes separator) s = .next t ∧
      s.shown n (clockPattern hours minutes separator n) t

/-- R191, R192: RENDER_DATE, under either DATE_LAYOUT. -/
def Obligations.RenderDateShowsDate : Prop :=
  ∀ (day month : Byte) (s : State),
    (s.n = none → exec (.renderDate day month) s =
      .next { s with refused := true, refusals := s.refusals ++ [.notInitialised] }) ∧
    ∀ n, s.hasSize n → ∃ t, exec (.renderDate day month) s = .next t ∧ s.shown n (datePattern Config.dateLayout day month n) t

/-- R175: the battery overlay ORs 0x80 into positions 1 to min(level, 3, N) and leaves every other cell. That an unwritten cell stays
unwritten under the OR is the model's choice: log entry 3, DEDUCED. -/
def Obligations.BatteryOverlaySetsLowPositions : Prop :=
  ∀ (n : Nat) (level : Byte) (m : Memory) (p : Nat), n ≤ 16 →
    (batteryOverlay n level m).read p =
      if 1 ≤ p ∧ p ≤ min (min level.toNat 3) n then (m.read p).map (· ||| 0x80#8) else m.read p

/-- R127: a renderer that populates no position sends the frame CLEAR sends. -/
def Obligations.EmptyRendersEqualClear : Prop :=
  ∀ (s : State) (bytes : List Byte), exec (.renderStr [] 0#8) s = exec .clear s ∧ exec (.renderRaw bytes 0) s = exec .clear s

/-- R263: after INIT, with nothing before it, any renderer and CLEAR run to the end: not refused, not faulted, the frame sent. -/
def Obligations.MinimalBootShows : Prop :=
  ∀ (size : Byte) (s : State) (i : Instr),
    (i = .clear ∨ (∃ v d z b, i = .renderDec v d z b) ∨ (∃ v z b, i = .renderHex v z b) ∨ (∃ x b, i = .renderStr x b) ∨
      (∃ x c, i = .renderRaw x c ∧ c ≤ x.length) ∨ (∃ h m z, i = .renderClock h m z) ∨ (∃ d m, i = .renderDate d m)) →
    ∃ t u bytes, exec (.init size) s = .next t ∧ exec i t = .next u ∧
      u.refused = s.refused ∧ u.faulted = s.faulted ∧
      u.events = t.events ++ transaction bytes .tShow (t.answer 0)

/-- R268: in every frame CLEAR or a renderer sends the 7 padding bits are 0. -/
def Obligations.RenderedFramesEndInZeroPadding : Prop :=
  ∀ (s t : State) (n : Nat) (i : Instr), s.hasSize n →
    (i = .clear ∨ (∃ v d z b, i = .renderDec v d z b) ∨ (∃ v z b, i = .renderHex v z b) ∨ (∃ x b, i = .renderStr x b) ∨
      (∃ x c, i = .renderRaw x c ∧ min c n ≤ x.length) ∨ (∃ h m z, i = .renderClock h m z) ∨ (∃ d m, i = .renderDate d m)) →
    exec i s = .next t →
    ∃ bytes last, t.events = s.events ++ transaction bytes .tShow (s.answer 0) ∧ bytes[n + 1]? = some last ∧
      last &&& 0x7F#8 = 0#8

/-! ### The wire frames -/

/-- R73, R74, R101: what the two wire frames of the opcode table stand for is one transaction of their bytes; `STATUS` is left to
the request that sends them. That they have a meaning of their own is the model's choice (log entry 8). -/
def Obligations.WireFramesAreTransactions : Prop :=
  (∀ (k : Byte) (s : State),
    exec (.wireCmd k) s = .next
      { s.afterDraws 1 with events := s.events ++ transaction [0x80#8 ||| (k >>> 3), k <<< 5] .tCmd (s.answer 0) }) ∧
  ∀ (data : List Byte) (pad : BitVec 7) (s : State), (Instr.wireWrite data pad).wellFormed = true →
    ∃ bytes, exec (.wireWrite data pad) s = .next
        { s.afterDraws 1 with events := s.events ++ transaction bytes .tShow (s.answer 0) } ∧
      bytes.length = data.length + 2 ∧
      bitStream bytes = [true, false, true] ++ List.replicate 6 false ++ bitStream data ++ (bitStream [pad ++ 0#1]).take 7
end

