-- ==== Sys2Proof/Laws/Bits.lean ====
section
/-! SUPPORT. The bits of joined and cut fields at the widths the frames use. -/

namespace Sys2Proof

/-- A bit of a 1-bit field over a 7-bit field. -/
theorem getLsbD_join1_7 (c : BitVec 1) (t : BitVec 7) (i : Nat) :
    BitVec.getLsbD (w := 8) (c ++ t) i = if i < 7 then t.getLsbD i else c.getLsbD (i - 7) :=
  BitVec.getLsbD_append

/-- A bit of a 7-bit field over a 1-bit field. -/
theorem getLsbD_join7_1 (c : BitVec 7) (t : BitVec 1) (i : Nat) :
    BitVec.getLsbD (w := 8) (c ++ t) i = if i < 1 then t.getLsbD i else c.getLsbD (i - 1) :=
  BitVec.getLsbD_append

/-- A bit of two bytes side by side. -/
theorem getLsbD_join8_8 (c t : Byte) (i : Nat) :
    BitVec.getLsbD (w := 16) (c ++ t) i = if i < 8 then t.getLsbD i else c.getLsbD (i - 8) :=
  BitVec.getLsbD_append

/-- Two bytes with the same eight bits are the same. -/
theorem byte_eq {a b : Byte} (h : ∀ i, i < 8 → a.getLsbD i = b.getLsbD i) : a = b :=
  BitVec.eq_of_getLsbD_eq h

end Sys2Proof
end

