-- ==== Sys2Proof/Laws/Exec.lean ====
section
/-! SUPPORT. What exec runs for each instruction, over the shared operations; cited instead of unfolding exec and the meanings. -/

namespace Sys2Proof.Machine

theorem exec_init (size : Byte) (s : State) :
    exec (.init size) s = .next (((sendAll initCodes s).2.setSize (clampSize size)).setStatus (sendAll initCodes s).1) := rfl

theorem exec_clear (s : State) : exec .clear s = withSize s fun n => render n id s := rfl

theorem exec_prepare (s : State) : exec .prepare s = withSize s fun n => .next (s.setBuf (prepare n s.buf)) := rfl

theorem exec_setDigit (seg digit : Byte) (dot : Bool) (s : State) :
    exec (.setDigit seg digit dot) s =
      withSize s fun n => .next (s.setBuf (setDigitCell n seg.toNat digit.toNat dot s.buf)) := rfl

theorem exec_setChar (seg sym : Byte) (dot : Bool) (s : State) :
    exec (.setChar seg sym dot) s = withSize s fun n => .next (s.setBuf (setCharCell n seg.toNat sym.toNat dot s.buf)) := rfl

theorem exec_setRaw (seg raw : Byte) (s : State) :
    exec (.setRaw seg raw) s = withSize s fun n => .next (s.setBuf (setRawCell n seg.toNat raw s.buf)) := rfl

theorem exec_showFrame (s : State) : exec .showFrame s = withSize s fun n => showBuffer n s.buf s := rfl

theorem exec_renderDec (value : Word32) (decPoint : Byte) (suppress : Bool) (battery : Byte) (s : State) :
    exec (.renderDec value decPoint suppress battery) s = withSize s fun n =>
      render n (fun m => batteryOverlay n battery (decimalPoint n decPoint.toNat
        (decimalLoop n (isNegative value) suppress n 1 (magnitude value) m))) s := rfl

theorem exec_renderHex (value : Word32) (suppress : Bool) (battery : Byte) (s : State) :
    exec (.renderHex value suppress battery) s = withSize s fun n =>
      render n (fun m => batteryOverlay n battery (hexLoop n suppress n 1 value.toNat m)) s := rfl

theorem exec_renderStr (text : List Byte) (battery : Byte) (s : State) :
    exec (.renderStr text battery) s = withSize s fun n =>
      render n (fun m => batteryOverlay n battery (textLoop n (text.take n) m)) s := rfl

theorem exec_renderRaw (bytes : List Byte) (count : Nat) (s : State) :
    exec (.renderRaw bytes count) s = withSize s fun n =>
      if min count n ≤ bytes.length then render n (fun m => m.store 1 (bytes.take (min count n))) s
      else refuse .rawCountExceedsData s := rfl

theorem exec_renderClock (hours minutes : Byte) (separator : Bool) (s : State) :
    exec (.renderClock hours minutes separator) s = withSize s fun n =>
      render n (fun m => if separator then (fourDigits n minutes hours m).orCell 1 dotMask else fourDigits n minutes hours m) s :=
  rfl

theorem exec_renderDate (day month : Byte) (s : State) :
    exec (.renderDate day month) s = withSize s fun n =>
      render n (fun m =>
        if 3 ≤ n then (fourDigits n (dateLow day month) (dateHigh day month) m).orCell 3 dotMask
        else fourDigits n (dateLow day month) (dateHigh day month) m) s := rfl

theorem exec_powerOn (s : State) :
    exec .powerOn s = .next ((sendCmd (Config.cmdCode .lcdOn) s).setStatus s.nextStatus) := rfl

theorem exec_powerOff (s : State) :
    exec .powerOff s = .next ((sendCmd (Config.cmdCode .lcdOff) s).setStatus s.nextStatus) := rfl

theorem exec_reserved (s : State) : exec .reserved s = refuse .reservedOpcode s := rfl

theorem exec_wireCmd (k : Byte) (s : State) : exec (.wireCmd k) s = .next (sendCmd k s) := rfl

theorem exec_wireWrite (data : List Byte) (pad : BitVec 7) (s : State) :
    exec (.wireWrite data pad) s = .next (emit (writeFrame data pad) .tShow s) := rfl

/-- SHOW's body always answers a next state. -/
theorem showBuffer_answers (n : Nat) (m : Memory) (s : State) : ∃ t, showBuffer n m s = .next t := by
  unfold showBuffer; split <;> exact ⟨_, rfl⟩

/-- Every request that reads `N` is `withSize` over a body that always answers a next state. -/
theorem exec_withSize (i : Instr) (h : i.needsSize = true) :
    ∃ body : State → Nat → Result, (∀ s, exec i s = withSize s (body s)) ∧ ∀ s n, ∃ t, body s n = .next t := by
  cases i with
  | init => cases h
  | powerOn => cases h
  | powerOff => cases h
  | reserved => cases h
  | wireCmd => cases h
  | wireWrite => cases h
  | clear => exact ⟨_, exec_clear, fun _ _ => showBuffer_answers _ _ _⟩
  | prepare => exact ⟨_, exec_prepare, fun _ _ => ⟨_, rfl⟩⟩
  | setDigit seg digit dot => exact ⟨_, exec_setDigit seg digit dot, fun _ _ => ⟨_, rfl⟩⟩
  | setChar seg sym dot => exact ⟨_, exec_setChar seg sym dot, fun _ _ => ⟨_, rfl⟩⟩
  | setRaw seg raw => exact ⟨_, exec_setRaw seg raw, fun _ _ => ⟨_, rfl⟩⟩
  | showFrame => exact ⟨_, exec_showFrame, fun _ _ => showBuffer_answers _ _ _⟩
  | renderDec value decPoint suppress battery =>
    exact ⟨_, exec_renderDec value decPoint suppress battery, fun _ _ => showBuffer_answers _ _ _⟩
  | renderHex value suppress battery => exact ⟨_, exec_renderHex value suppress battery, fun _ _ => showBuffer_answers _ _ _⟩
  | renderStr text battery => exact ⟨_, exec_renderStr text battery, fun _ _ => showBuffer_answers _ _ _⟩
  | renderRaw bytes count =>
    refine ⟨_, exec_renderRaw bytes count, fun s n => ?_⟩
    by_cases hc : min count n ≤ bytes.length
    · simp only [hc, if_true]; exact showBuffer_answers _ _ _
    · simp only [hc, if_false]; exact ⟨_, rfl⟩
  | renderClock hours minutes separator =>
    exact ⟨_, exec_renderClock hours minutes separator, fun _ _ => showBuffer_answers _ _ _⟩
  | renderDate day month => exact ⟨_, exec_renderDate day month, fun _ _ => showBuffer_answers _ _ _⟩

end Sys2Proof.Machine
end

