-- ==== Sys2Proof/Laws/Memory.lean ====
section
/-! SUPPORT. The buffer: what a read gives after each memory operation, and that each keeps the canonical form. -/

namespace Sys2Proof.Machine

@[simp] theorem Memory.read_nil (a : Nat) : Memory.read [] a = none := rfl

theorem Memory.read_insert (m : Memory) (a b : Nat) (v : Byte) :
    (Memory.insert m a v).read b = if b = a then some v else m.read b := by
  induction m with
  | nil => simp [Memory.insert, Memory.read]
  | cons c rest ih =>
    obtain ⟨k, w⟩ := c
    simp only [Memory.insert]
    split
    · simp [Memory.read]
    · split
      · subst_vars
        simp only [Memory.read]
        split <;> simp_all
      · simp only [Memory.read, ih]
        split <;> split <;> simp_all

/-- A read after a write. -/
theorem Memory.read_write (m : Memory) {a : Nat} (b : Nat) (v : Byte) (h : a < capacity) :
    (m.write a v).read b = if b = a then some v else m.read b := by
  simp [Memory.write, h, Memory.read_insert]

theorem Memory.read_write_same (m : Memory) {a : Nat} (v : Byte) (h : a < capacity) : (m.write a v).read a = some v := by
  simp [Memory.read_write, h]

theorem Memory.read_write_other (m : Memory) {a b : Nat} (v : Byte) (h : b ≠ a) : (m.write a v).read b = m.read b := by
  unfold Memory.write
  split
  · simp [Memory.read_insert, h]
  · rfl

theorem Memory.insert_fst (m : Memory) (a : Nat) (v : Byte) (k : Nat) :
    k ∈ (Memory.insert m a v).map Prod.fst ↔ k = a ∨ k ∈ m.map Prod.fst := by
  induction m with
  | nil => simp [Memory.insert]
  | cons c rest ih =>
    obtain ⟨b, w⟩ := c
    simp only [Memory.insert]
    split
    · simp
    · split
      · simp_all
      · simp only [List.map_cons, List.mem_cons, ih]; tauto

theorem Memory.insert_sorted (m : Memory) (a : Nat) (v : Byte) (h : (m.map Prod.fst).Pairwise (· < ·)) :
    ((Memory.insert m a v).map Prod.fst).Pairwise (· < ·) := by
  induction m with
  | nil => simp [Memory.insert]
  | cons c rest ih =>
    obtain ⟨b, w⟩ := c
    simp only [List.map_cons, List.pairwise_cons] at h
    simp only [Memory.insert]
    split
    · rename_i hab
      simp only [List.map_cons, List.pairwise_cons, List.mem_cons]
      refine ⟨fun x hx => ?_, h.1, h.2⟩
      rcases hx with rfl | hx
      · exact hab
      · exact lt_trans hab (h.1 x hx)
    · split
      · subst_vars
        simpa using h
      · rename_i h1 h2
        simp only [List.map_cons, List.pairwise_cons]
        refine ⟨fun x hx => ?_, ih h.2⟩
        rcases (Memory.insert_fst rest a v x).1 hx with rfl | hx
        · omega
        · exact h.1 x hx

/-- A write keeps the canonical form. -/
theorem Memory.write_wf {m : Memory} (h : m.wf) (a : Nat) (v : Byte) : (m.write a v).wf := by
  unfold Memory.write
  split
  · rename_i ha
    refine ⟨Memory.insert_sorted m a v h.1, fun c hc => ?_⟩
    rcases (Memory.insert_fst m a v c.1).1 (List.mem_map_of_mem hc) with hk | hk
    · omega
    · obtain ⟨d, hd, hk⟩ := List.mem_map.1 hk
      rw [← hk]; exact h.2 d hd
  · exact h

/-- An OR into a cell keeps the canonical form. -/
theorem Memory.orCell_wf {m : Memory} (h : m.wf) (a : Nat) (mask : Byte) : (m.orCell a mask).wf := by
  unfold Memory.orCell
  split
  · exact h
  · exact Memory.write_wf h _ _

/-- A block of writes keeps the canonical form. -/
theorem Memory.store_wf {m : Memory} (h : m.wf) (a : Nat) (bytes : List Byte) : (m.store a bytes).wf := by
  induction bytes generalizing m a with
  | nil => exact h
  | cons v rest ih => exact ih (Memory.write_wf h a v) (a + 1)

/-- A read after an OR into a cell. -/
theorem Memory.read_orCell (m : Memory) {a : Nat} (b : Nat) (mask : Byte) (h : a < capacity) :
    (m.orCell a mask).read b = if b = a then (m.read a).map (· ||| mask) else m.read b := by
  unfold Memory.orCell
  split
  · rename_i hn; split <;> simp_all
  · rename_i v hv
    rw [Memory.read_write m b _ h]
    split <;> simp_all

theorem Memory.read_orCell_other (m : Memory) {a b : Nat} (mask : Byte) (h : b ≠ a) :
    (m.orCell a mask).read b = m.read b := by
  unfold Memory.orCell
  split
  · rfl
  · exact Memory.read_write_other m _ h

/-- A read after a block of writes that fits the buffer. -/
theorem Memory.read_store (m : Memory) (a b : Nat) (bytes : List Byte) (h : a + bytes.length ≤ capacity) :
    (m.store a bytes).read b = if a ≤ b ∧ b < a + bytes.length then bytes[b - a]? else m.read b := by
  induction bytes generalizing m a with
  | nil => simp only [Memory.store, List.length_nil]; split <;> [omega; rfl]
  | cons v rest ih =>
    simp only [List.length_cons] at h ⊢
    rw [Memory.store, ih (m.write a v) (a + 1) (by omega), Memory.read_write m b v (by omega)]
    by_cases h1 : b = a
    · subst h1; simp
    · by_cases h2 : a + 1 ≤ b ∧ b < a + 1 + rest.length
      · have : b - a = (b - (a + 1)) + 1 := by omega
        rw [if_pos h2, if_pos (by omega), this, List.getElem?_cons_succ]
      · rw [if_neg h2, if_neg h1, if_neg (by omega)]

/-- A block of writes leaves every cell outside the block alone. -/
theorem Memory.read_store_other (m : Memory) (a b : Nat) (bytes : List Byte) (h : b < a ∨ a + bytes.length ≤ b) :
    (m.store a bytes).read b = m.read b := by
  induction bytes generalizing m a with
  | nil => rfl
  | cons v rest ih =>
    simp only [List.length_cons] at h
    rw [Memory.store, ih (m.write a v) (a + 1) (by omega), Memory.read_write_other m v (by omega)]

/-- A block is read exactly when every one of its cells is written. -/
theorem Memory.load_of_read (m : Memory) (a count : Nat) (p : Nat → Byte)
    (h : ∀ k, k < count → m.read (a + k) = some (p k)) : m.load a count = some ((List.range count).map p) := by
  induction count generalizing a p with
  | zero => rfl
  | succ c ih =>
    have h0 := h 0 (by omega)
    have hs := ih (a + 1) (fun k => p (k + 1)) (fun k hk => by
      rw [Nat.add_right_comm, Nat.add_assoc]; exact h (k + 1) (by omega))
    rw [Nat.add_zero] at h0
    simp only [Memory.load, h0, hs, List.range_succ_eq_map, List.map_cons, List.map_map]
    rfl

/-- A block with an unwritten cell is not read. -/
theorem Memory.load_none (m : Memory) (a count k : Nat) (hk : k < count) (h : m.read (a + k) = none) :
    m.load a count = none := by
  induction count generalizing a k with
  | zero => omega
  | succ c ih =>
    cases k with
    | zero => rw [Nat.add_zero] at h; simp [Memory.load, h]
    | succ k =>
      have := ih (a + 1) k (by omega) (by rw [Nat.add_right_comm, Nat.add_assoc]; exact h)
      simp only [Memory.load, this]
      split <;> simp_all

theorem Memory.load_length {m : Memory} {a count : Nat} {cells : List Byte} (h : m.load a count = some cells) :
    cells.length = count := by
  induction count generalizing a cells with
  | zero => simp only [Memory.load, Option.some.injEq] at h; simp [← h]
  | succ c ih =>
    simp only [Memory.load] at h
    split at h
    · rename_i v rest h1 h2
      simp only [Option.some.injEq] at h
      rw [← h, List.length_cons, ih h2]
    · simp at h

/-- Writing a byte twice is writing it once. -/
theorem Memory.write_write (m : Memory) (a : Nat) (v : Byte) : (m.write a v).write a v = m.write a v := by
  unfold Memory.write
  split
  · induction m with
    | nil => simp [Memory.insert]
    | cons c rest ih =>
      obtain ⟨b, w⟩ := c
      simp only [Memory.insert]
      split
      · simp [Memory.insert]
      · split
        · simp [Memory.insert]
        · rename_i h1 h2
          simp [Memory.insert, h1, h2, ih]
  · rfl

end Sys2Proof.Machine
end

