-- ==== Sys2Proof/Laws/State.lean ====
section
/-! SUPPORT. One lemma per field of the state and per update of it. -/

namespace Sys2Proof.Machine

/-! ### setBuf -/

@[simp] theorem State.setBuf_n (s : State) (m : Memory) : (s.setBuf m).n = s.n := rfl
@[simp] theorem State.setBuf_buf (s : State) (m : Memory) : (s.setBuf m).buf = m := rfl
@[simp] theorem State.setBuf_status (s : State) (m : Memory) : (s.setBuf m).status = s.status := rfl
@[simp] theorem State.setBuf_faulted (s : State) (m : Memory) : (s.setBuf m).faulted = s.faulted := rfl
@[simp] theorem State.setBuf_refused (s : State) (m : Memory) : (s.setBuf m).refused = s.refused := rfl
@[simp] theorem State.setBuf_events (s : State) (m : Memory) : (s.setBuf m).events = s.events := rfl
@[simp] theorem State.setBuf_refusals (s : State) (m : Memory) : (s.setBuf m).refusals = s.refusals := rfl
@[simp] theorem State.setBuf_requests (s : State) (m : Memory) : (s.setBuf m).requests = s.requests := rfl
@[simp] theorem State.setBuf_transport (s : State) (m : Memory) : (s.setBuf m).transport = s.transport := rfl
@[simp] theorem State.setBuf_drawIndex (s : State) (m : Memory) : (s.setBuf m).drawIndex = s.drawIndex := rfl

/-! ### setStatus -/

@[simp] theorem State.setStatus_n (s : State) (x : BusStatus) : (s.setStatus x).n = s.n := rfl
@[simp] theorem State.setStatus_buf (s : State) (x : BusStatus) : (s.setStatus x).buf = s.buf := rfl
@[simp] theorem State.setStatus_status (s : State) (x : BusStatus) : (s.setStatus x).status = x := rfl
@[simp] theorem State.setStatus_faulted (s : State) (x : BusStatus) : (s.setStatus x).faulted = s.faulted := rfl
@[simp] theorem State.setStatus_refused (s : State) (x : BusStatus) : (s.setStatus x).refused = s.refused := rfl
@[simp] theorem State.setStatus_events (s : State) (x : BusStatus) : (s.setStatus x).events = s.events := rfl
@[simp] theorem State.setStatus_refusals (s : State) (x : BusStatus) : (s.setStatus x).refusals = s.refusals := rfl
@[simp] theorem State.setStatus_requests (s : State) (x : BusStatus) : (s.setStatus x).requests = s.requests := rfl
@[simp] theorem State.setStatus_transport (s : State) (x : BusStatus) : (s.setStatus x).transport = s.transport := rfl
@[simp] theorem State.setStatus_drawIndex (s : State) (x : BusStatus) : (s.setStatus x).drawIndex = s.drawIndex := rfl

/-! ### setSize -/

@[simp] theorem State.setSize_n (s : State) (x : BitVec 5) : (s.setSize x).n = some x := rfl
@[simp] theorem State.setSize_buf (s : State) (x : BitVec 5) : (s.setSize x).buf = s.buf := rfl
@[simp] theorem State.setSize_status (s : State) (x : BitVec 5) : (s.setSize x).status = s.status := rfl
@[simp] theorem State.setSize_faulted (s : State) (x : BitVec 5) : (s.setSize x).faulted = s.faulted := rfl
@[simp] theorem State.setSize_refused (s : State) (x : BitVec 5) : (s.setSize x).refused = s.refused := rfl
@[simp] theorem State.setSize_events (s : State) (x : BitVec 5) : (s.setSize x).events = s.events := rfl
@[simp] theorem State.setSize_refusals (s : State) (x : BitVec 5) : (s.setSize x).refusals = s.refusals := rfl
@[simp] theorem State.setSize_requests (s : State) (x : BitVec 5) : (s.setSize x).requests = s.requests := rfl
@[simp] theorem State.setSize_transport (s : State) (x : BitVec 5) : (s.setSize x).transport = s.transport := rfl
@[simp] theorem State.setSize_drawIndex (s : State) (x : BitVec 5) : (s.setSize x).drawIndex = s.drawIndex := rfl

/-! ### markRefused -/

@[simp] theorem State.markRefused_n (s : State) (r : RefuseReason) : (s.markRefused r).n = s.n := rfl
@[simp] theorem State.markRefused_buf (s : State) (r : RefuseReason) : (s.markRefused r).buf = s.buf := rfl
@[simp] theorem State.markRefused_status (s : State) (r : RefuseReason) : (s.markRefused r).status = s.status := rfl
@[simp] theorem State.markRefused_faulted (s : State) (r : RefuseReason) : (s.markRefused r).faulted = s.faulted := rfl
@[simp] theorem State.markRefused_refused (s : State) (r : RefuseReason) : (s.markRefused r).refused = true := rfl
@[simp] theorem State.markRefused_events (s : State) (r : RefuseReason) : (s.markRefused r).events = s.events := rfl
@[simp] theorem State.markRefused_refusals (s : State) (r : RefuseReason) : (s.markRefused r).refusals = s.refusals ++ [r] := rfl
@[simp] theorem State.markRefused_requests (s : State) (r : RefuseReason) : (s.markRefused r).requests = s.requests := rfl
@[simp] theorem State.markRefused_transport (s : State) (r : RefuseReason) : (s.markRefused r).transport = s.transport := rfl
@[simp] theorem State.markRefused_drawIndex (s : State) (r : RefuseReason) : (s.markRefused r).drawIndex = s.drawIndex := rfl

/-! ### markFaulted -/

@[simp] theorem State.markFaulted_n (s : State) : (s.markFaulted).n = s.n := rfl
@[simp] theorem State.markFaulted_buf (s : State) : (s.markFaulted).buf = s.buf := rfl
@[simp] theorem State.markFaulted_status (s : State) : (s.markFaulted).status = s.status := rfl
@[simp] theorem State.markFaulted_faulted (s : State) : (s.markFaulted).faulted = true := rfl
@[simp] theorem State.markFaulted_refused (s : State) : (s.markFaulted).refused = s.refused := rfl
@[simp] theorem State.markFaulted_events (s : State) : (s.markFaulted).events = s.events := rfl
@[simp] theorem State.markFaulted_refusals (s : State) : (s.markFaulted).refusals = s.refusals := rfl
@[simp] theorem State.markFaulted_requests (s : State) : (s.markFaulted).requests = s.requests := rfl
@[simp] theorem State.markFaulted_transport (s : State) : (s.markFaulted).transport = s.transport := rfl
@[simp] theorem State.markFaulted_drawIndex (s : State) : (s.markFaulted).drawIndex = s.drawIndex := rfl

/-! ### record -/

@[simp] theorem State.record_n (s : State) (evs : List BusEvent) : (s.record evs).n = s.n := rfl
@[simp] theorem State.record_buf (s : State) (evs : List BusEvent) : (s.record evs).buf = s.buf := rfl
@[simp] theorem State.record_status (s : State) (evs : List BusEvent) : (s.record evs).status = s.status := rfl
@[simp] theorem State.record_faulted (s : State) (evs : List BusEvent) : (s.record evs).faulted = s.faulted := rfl
@[simp] theorem State.record_refused (s : State) (evs : List BusEvent) : (s.record evs).refused = s.refused := rfl
@[simp] theorem State.record_events (s : State) (evs : List BusEvent) : (s.record evs).events = s.events ++ evs := rfl
@[simp] theorem State.record_refusals (s : State) (evs : List BusEvent) : (s.record evs).refusals = s.refusals := rfl
@[simp] theorem State.record_requests (s : State) (evs : List BusEvent) : (s.record evs).requests = s.requests := rfl
@[simp] theorem State.record_transport (s : State) (evs : List BusEvent) : (s.record evs).transport = s.transport := rfl
@[simp] theorem State.record_drawIndex (s : State) (evs : List BusEvent) : (s.record evs).drawIndex = s.drawIndex := rfl

/-! ### drawn -/

@[simp] theorem State.drawn_n (s : State) : s.drawn.n = s.n := by unfold State.drawn; split <;> rfl
@[simp] theorem State.drawn_buf (s : State) : s.drawn.buf = s.buf := by unfold State.drawn; split <;> rfl
@[simp] theorem State.drawn_status (s : State) : s.drawn.status = s.status := by unfold State.drawn; split <;> rfl
@[simp] theorem State.drawn_faulted (s : State) : s.drawn.faulted = s.faulted := by unfold State.drawn; split <;> rfl
@[simp] theorem State.drawn_refused (s : State) : s.drawn.refused = s.refused := by unfold State.drawn; split <;> rfl
@[simp] theorem State.drawn_events (s : State) : s.drawn.events = s.events := by unfold State.drawn; split <;> rfl
@[simp] theorem State.drawn_refusals (s : State) : s.drawn.refusals = s.refusals := by unfold State.drawn; split <;> rfl
@[simp] theorem State.drawn_requests (s : State) : s.drawn.requests = s.requests := by unfold State.drawn; split <;> rfl

@[simp] theorem State.drawn_transport (s : State) : s.drawn.transport = s.transport.drop 1 := by
  unfold State.drawn; split <;> simp_all

@[simp] theorem State.drawn_drawIndex (s : State) : s.drawn.drawIndex = s.drawIndex + (1 - s.transport.length) := by
  unfold State.drawn; split <;> simp_all

/-! ### emit -/

@[simp] theorem emit_n (bytes : List Byte) (t : Timeout) (s : State) : (emit bytes t s).n = s.n := by simp [emit]
@[simp] theorem emit_buf (bytes : List Byte) (t : Timeout) (s : State) : (emit bytes t s).buf = s.buf := by simp [emit]
@[simp] theorem emit_status (bytes : List Byte) (t : Timeout) (s : State) : (emit bytes t s).status = s.status := by simp [emit]
@[simp] theorem emit_faulted (bytes : List Byte) (t : Timeout) (s : State) : (emit bytes t s).faulted = s.faulted := by simp [emit]
@[simp] theorem emit_refused (bytes : List Byte) (t : Timeout) (s : State) : (emit bytes t s).refused = s.refused := by simp [emit]
@[simp] theorem emit_events (bytes : List Byte) (t : Timeout) (s : State) :
    (emit bytes t s).events = s.events ++ transaction bytes t s.nextStatus := by simp [emit]
@[simp] theorem emit_refusals (bytes : List Byte) (t : Timeout) (s : State) : (emit bytes t s).refusals = s.refusals := by simp [emit]
@[simp] theorem emit_requests (bytes : List Byte) (t : Timeout) (s : State) : (emit bytes t s).requests = s.requests := by simp [emit]
@[simp] theorem emit_transport (bytes : List Byte) (t : Timeout) (s : State) : (emit bytes t s).transport = s.transport.drop 1 := by simp [emit]
@[simp] theorem emit_drawIndex (bytes : List Byte) (t : Timeout) (s : State) : (emit bytes t s).drawIndex = s.drawIndex + (1 - s.transport.length) := by simp [emit]

/-- Two states with equal fields are equal. -/
theorem State.ext_fields {s t : State} (hn : s.n = t.n) (hb : s.buf = t.buf) (hs : s.status = t.status)
    (hf : s.faulted = t.faulted) (hr : s.refused = t.refused) (he : s.events = t.events) (hl : s.refusals = t.refusals)
    (hq : s.requests = t.requests) (ht : s.transport = t.transport) (hd : s.drawIndex = t.drawIndex) : s = t := by
  cases s; cases t; simp_all

end Sys2Proof.Machine
end

