-- ==== Sys2Proof/Laws/Ops.lean ====
section
/-! SUPPORT. One lemma per shared operation that says everything it can do: the outcomes, the transport, the setters' bodies,
PREPARE's body, the shifter, SHOW and the renderers' skeleton. -/

namespace Sys2Proof.Machine

/-! ### The precondition on `N` -/

theorem State.hasSize_toNat {s : State} {n : Nat} (h : s.hasSize n) : ∃ x : BitVec 5, s.n = some x ∧ x.toNat = n := by
  obtain ⟨h1, h2, h3⟩ := h
  unfold maxSize at h3
  exact ⟨_, h1, by rw [BitVec.toNat_ofNat]; omega⟩

theorem State.hasSize_le {s : State} {n : Nat} (h : s.hasSize n) : 2 ≤ n ∧ n ≤ 16 := ⟨h.2.1, h.2.2⟩

@[simp] theorem State.hasSize_setBuf (s : State) (m : Memory) (n : Nat) : (s.setBuf m).hasSize n ↔ s.hasSize n := Iff.rfl

/-- Before the first INIT a request that reads `N` is refused (R262). -/
theorem withSize_unset {s : State} (h : s.n = none) (body : Nat → Result) :
    withSize s body = .next { s with refused := true, refusals := s.refusals ++ [.notInitialised] } := by
  simp [withSize, h, refuse, State.markRefused]

/-- With `N` set the body runs on it. -/
theorem withSize_set {s : State} {n : Nat} (h : s.hasSize n) (body : Nat → Result) : withSize s body = body n := by
  obtain ⟨x, hx, rfl⟩ := State.hasSize_toNat h
  have : x.toNat ≤ maxSize := h.2.2
  simp [withSize, hx, this]

/-- If `withSize` answers a next state, the request was refused or its body answered it, for the number in `N`. -/
theorem withSize_next {s t : State} {body : Nat → Result} (h : withSize s body = .next t) :
    (s.n = none ∧ t = s.markRefused .notInitialised) ∨
    ∃ x : BitVec 5, s.n = some x ∧ x.toNat ≤ 16 ∧ body x.toNat = .next t := by
  unfold withSize at h
  split at h
  · rename_i hn
    simp only [refuse, Host.Outcome.next.injEq] at h
    exact .inl ⟨hn, h.symm⟩
  · rename_i x hx
    split at h
    · rename_i hle
      exact .inr ⟨x, hx, hle, h⟩
    · cases h

/-! ### The transport -/

theorem State.nextStatus_eq_answer (s : State) : s.nextStatus = s.answer 0 := by
  unfold State.nextStatus State.answer
  cases h : s.transport <;> simp

theorem State.drawn_eq_afterDraws (s : State) : s.drawn = s.afterDraws 1 := by
  unfold State.drawn State.afterDraws
  cases h : s.transport <;> simp

/-- Drawing more statuses after some is drawing them all. -/
theorem State.afterDraws_afterDraws (s : State) (j k : Nat) : (s.afterDraws j).afterDraws k = s.afterDraws (j + k) := by
  simp only [State.afterDraws, List.drop_drop, List.length_drop, State.mk.injEq, true_and]
  omega

/-- The statuses after some draws are the later ones. -/
theorem State.answer_afterDraws (s : State) (j k : Nat) : (s.afterDraws j).answer k = s.answer (j + k) := by
  simp only [State.afterDraws, State.answer, List.getElem?_drop, List.length_drop]
  cases h : s.transport[j + k]? with
  | some x => rfl
  | none =>
    simp only
    have := List.getElem?_eq_none_iff.1 h
    congr 1
    omega

/-- One transaction: the next status is drawn and the three events are recorded. -/
theorem emit_eq (bytes : List Byte) (t : Timeout) (s : State) :
    emit bytes t s = { s.afterDraws 1 with events := s.events ++ transaction bytes t (s.answer 0) } := by
  simp [emit, State.record, State.drawn_eq_afterDraws, State.nextStatus_eq_answer, State.afterDraws]

/-! ### Cells -/

theorem prepare_wf {m : Memory} (h : m.wf) (n : Nat) : (prepare n m).wf := Memory.store_wf h _ _

/-- PREPARE's body (R124): cells `0..N+1` read 0, the others are left alone. -/
theorem read_prepare (m : Memory) {n : Nat} (h : n ≤ 16) (a : Nat) :
    (prepare n m).read a = if a ≤ n + 1 then some 0#8 else m.read a := by
  unfold prepare
  rw [Memory.read_store _ _ _ _ (by simp [capacity]; omega)]
  simp only [List.length_replicate, Nat.zero_le, true_and, Nat.zero_add, Nat.sub_zero]
  by_cases ha : a ≤ n + 1
  · rw [if_pos (by omega), if_pos ha, List.getElem?_replicate, if_pos (by omega)]
  · rw [if_neg (by omega), if_neg ha]

/-- SET_DIGIT's body (R121). -/
theorem read_setDigitCell (m : Memory) {n : Nat} (h : n ≤ 16) (seg digit : Nat) (dot : Bool) (a : Nat) :
    (setDigitCell n seg digit dot m).read a =
      if (seg < n ∧ digit ≤ 15) ∧ a = seg + 1 then some (digitGlyph digit ||| dotBits dot) else m.read a := by
  unfold setDigitCell
  by_cases hc : seg < n ∧ digit ≤ 15
  · rw [if_pos hc, Memory.read_write _ _ _ (by simp only [capacity]; omega)]; simp [hc]
  · rw [if_neg hc]; simp [hc]

/-- SET_CHAR's body (R122). -/
theorem read_setCharCell (m : Memory) {n : Nat} (h : n ≤ 16) (seg sym : Nat) (dot : Bool) (a : Nat) :
    (setCharCell n seg sym dot m).read a =
      if (seg < n ∧ 40 ≤ sym ∧ sym ≤ 95) ∧ a = seg + 1 then some (charGlyph sym ||| dotBits dot) else m.read a := by
  unfold setCharCell
  by_cases hc : seg < n ∧ 40 ≤ sym ∧ sym ≤ 95
  · rw [if_pos hc, Memory.read_write _ _ _ (by simp only [capacity]; omega)]; simp [hc]
  · rw [if_neg hc]; simp [hc]

/-- SET_RAW's body (R123). -/
theorem read_setRawCell (m : Memory) {n : Nat} (h : n ≤ 16) (seg : Nat) (raw : Byte) (a : Nat) :
    (setRawCell n seg raw m).read a = if seg < n ∧ a = seg + 1 then some raw else m.read a := by
  unfold setRawCell
  by_cases hc : seg < n
  · rw [if_pos hc, Memory.read_write _ _ _ (by simp only [capacity]; omega)]; simp [hc]
  · rw [if_neg hc]; simp [hc]

theorem setDigitCell_wf {m : Memory} (h : m.wf) (n seg digit : Nat) (dot : Bool) : (setDigitCell n seg digit dot m).wf := by
  unfold setDigitCell; split
  · exact Memory.write_wf h _ _
  · exact h

theorem setCharCell_wf {m : Memory} (h : m.wf) (n seg sym : Nat) (dot : Bool) : (setCharCell n seg sym dot m).wf := by
  unfold setCharCell; split
  · exact Memory.write_wf h _ _
  · exact h

theorem setRawCell_wf {m : Memory} (h : m.wf) (n seg : Nat) (raw : Byte) : (setRawCell n seg raw m).wf := by
  unfold setRawCell; split
  · exact Memory.write_wf h _ _
  · exact h

/-! ### The shifter and SHOW -/

theorem shiftWindow_eq (prev cur : Byte) : shiftWindow prev cur = prev.extractLsb' 0 1 ++ cur.extractLsb' 1 7 := by
  unfold shiftWindow
  refine byte_eq fun i hi => ?_
  rw [getLsbD_join1_7, BitVec.getLsbD_extractLsb', BitVec.getLsbD_ushiftRight, getLsbD_join8_8]
  interval_cases i <;> simp

theorem shiftTail_length (prev : Byte) (cells : List Byte) : (shiftTail prev cells).length = cells.length := by
  induction cells generalizing prev with
  | nil => rfl
  | cons c rest ih => simp [shiftTail, ih]

theorem shiftImage_length (cells : List Byte) : (shiftImage cells).length = cells.length := by
  cases cells with
  | nil => rfl
  | cons h rest =>
    cases rest with
    | nil => rfl
    | cons c rest => simp [shiftImage, shiftTail, clearAddressBit, shiftTail_length]

/-- The loop of Shift on the cells after the first two (R150). -/
theorem shiftTail_range (p : Nat → Byte) (a count : Nat) :
    shiftTail (p a) ((List.range count).map fun k => p (a + 1 + k)) =
      (List.range count).map fun k => shiftWindow (p (a + k)) (p (a + 1 + k)) := by
  induction count generalizing a with
  | zero => rfl
  | succ c ih =>
    simp only [List.range_succ_eq_map, List.map_cons, List.map_map, shiftTail, Nat.add_zero]
    congr 1
    have := ih (a + 1)
    simp only [Function.comp_def]
    have e : (fun x => p (a + 1 + Nat.succ x)) = fun k => p (a + 1 + 1 + k) := by
      funext k; congr 1; omega
    have e' : (fun x => shiftWindow (p (a + Nat.succ x)) (p (a + 1 + Nat.succ x))) =
        fun k => shiftWindow (p (a + 1 + k)) (p (a + 1 + 1 + k)) := by
      funext k; congr 2 <;> omega
    rw [e, e']
    exact this

/-- Shift on the cells `p 0 .. p (n + 1)` gives the bytes of R153. -/
theorem shiftImage_eq_frameOf (n : Nat) (p : Nat → Byte) :
    shiftImage ((List.range (n + 2)).map p) = frameOf n (wireByte p) := by
  have h := shiftTail_range p 0 (n + 1)
  simp only [Nat.zero_add] at h
  unfold frameOf
  rw [List.range_succ_eq_map, List.map_cons, List.map_map, List.map_cons, List.map_map, shiftImage]
  have e : (List.range (n + 1)).map (p ∘ Nat.succ) = (List.range (n + 1)).map fun k => p (1 + k) := by
    simp [Function.comp_def, Nat.add_comm]
  rw [e, h, List.range_succ_eq_map, List.map_cons, List.map_map, List.map_cons, List.map_map, clearAddressBit]
  have e1 : shiftWindow (p 0) (p (1 + 0)) &&& 0x7F#8 = wireByte p 1 := by
    rw [shiftWindow_eq]
    unfold wireByte
    refine byte_eq fun i hi => ?_
    rw [BitVec.getLsbD_and, getLsbD_join1_7, getLsbD_join1_7]
    interval_cases i <;> simp
  rw [e1]
  congr 2
  apply List.map_congr_left
  intro k _
  simp only [Function.comp_apply, shiftWindow_eq, wireByte, Nat.succ_eq_add_one]
  rw [Nat.add_comm 1 (k + 1)]

/-- SHOW where every cell in use is written (R151): the frame is left in the buffer and sent. -/
theorem showBuffer_written (m : Memory) (s : State) {n : Nat} (p : Nat → Byte)
    (h : ∀ k, k ≤ n + 1 → m.read k = some (p k)) :
    showBuffer n m s = .next
      { s.afterDraws 1 with
        buf := m.store 0 (frameOf n (wireByte p))
        status := s.answer 0
        events := s.events ++ transaction (frameOf n (wireByte p)) .tShow (s.answer 0) } := by
  have hl := Memory.load_of_read m 0 (n + 2) p (fun k hk => by rw [Nat.zero_add]; exact h k (by omega))
  simp only [showBuffer, hl, shiftImage_eq_frameOf, emit_eq, State.setBuf, State.setStatus, State.nextStatus_eq_answer]
  rfl

/-- SHOW where a cell in use is unwritten faults (R260). -/
theorem showBuffer_unwritten (m : Memory) (s : State) {n k : Nat} (hk : k ≤ n + 1) (h : m.read k = none) :
    showBuffer n m s = .next s.markFaulted := by
  have := Memory.load_none m 0 (n + 2) k (by omega) (by rw [Nat.zero_add]; exact h)
  simp [showBuffer, this, faultUnwritten]

/-- If SHOW answers a next state, it faulted or it sent the shifted cells. -/
theorem showBuffer_next {m : Memory} {s t : State} {n : Nat} (h : showBuffer n m s = .next t) :
    t = s.markFaulted ∨ ∃ cells, m.load 0 (n + 2) = some cells ∧
      t = { s.afterDraws 1 with
            buf := m.store 0 (shiftImage cells)
            status := s.answer 0
            events := s.events ++ transaction (shiftImage cells) .tShow (s.answer 0) } := by
  unfold showBuffer at h
  split at h
  · simp only [faultUnwritten, Host.Outcome.next.injEq] at h
    exact .inl h.symm
  · rename_i cells hc
    simp only [Host.Outcome.next.injEq] at h
    refine .inr ⟨cells, hc, ?_⟩
    rw [← h]
    simp only [emit_eq, State.setBuf, State.setStatus, State.nextStatus_eq_answer]
    rfl

/-- What the frame left in the buffer reads as, and that nothing else is touched. -/
theorem read_store_frameOf (m : Memory) {n : Nat} (hn : n ≤ 16) (q : Nat → Byte) (a : Nat) :
    (m.store 0 (frameOf n q)).read a = if a ≤ n + 1 then some (q a) else m.read a := by
  have hlen : (frameOf n q).length = n + 2 := by simp [frameOf]
  rw [Memory.read_store _ _ _ _ (by rw [hlen, capacity]; omega), hlen]
  by_cases ha : a ≤ n + 1
  · rw [if_pos (by omega), if_pos ha]
    simp only [frameOf, Nat.sub_zero, List.getElem?_map, List.getElem?_range (show a < n + 2 by omega), Option.map_some]
  · rw [if_neg (by omega), if_neg ha]

/-- The renderers' skeleton (R170): if the fill turns a prepared buffer into the cells `p`, with nothing past the trailer, the frame
of `p` is shown. -/
theorem render_shown {n : Nat} (hn : n ≤ 16) (fill : Memory → Memory) (s : State) (p : Nat → Byte)
    (h : ∀ k, (fill (prepare n s.buf)).read k = if k ≤ n + 1 then some (p k) else s.buf.read k) :
    ∃ t, render n fill s = .next t ∧ s.shown n p t := by
  unfold render
  rw [showBuffer_written _ s p (fun k hk => by rw [h, if_pos hk])]
  refine ⟨_, rfl, fun k hk => ?_, fun k hk => ?_, rfl⟩
  · simp only [read_store_frameOf _ hn, if_pos hk]
  · simp only [read_store_frameOf _ hn, if_neg (show ¬ k ≤ n + 1 by omega), h]

/-- SendCmd (R101). -/
theorem sendCmd_eq (k : Byte) (s : State) :
    sendCmd k s = { s.afterDraws 1 with events := s.events ++ transaction (encodeCommand k) .tCmd (s.answer 0) } := emit_eq _ _ _

end Sys2Proof.Machine
end

