-- ==== Sys2Proof/Laws/Effect.lean ====
section
/-! SUPPORT. Said once: what an instruction that answers a next state can have done (`Effect`, `exec_effect`). Every whole-machine
claim is a case analysis on it, with no unfolding of exec. -/

namespace Sys2Proof.Machine

/-! ### What a renderer's fill may do to the buffer -/

/-- A fill for `N = n`: it keeps the canonical form, touches no cell past the trailer, and leaves every written cell written. -/
def Fills (n : Nat) (fill : Memory → Memory) : Prop :=
  ∀ m : Memory, (m.wf → (fill m).wf) ∧ (∀ a, n + 1 < a → (fill m).read a = m.read a) ∧
    ∀ a, m.read a ≠ none → (fill m).read a ≠ none

theorem Fills.id (n : Nat) : Fills n id := fun _ => ⟨fun h => h, fun _ _ => rfl, fun _ h => h⟩

theorem Fills.comp {n : Nat} {f g : Memory → Memory} (hf : Fills n f) (hg : Fills n g) : Fills n fun m => f (g m) :=
  fun m => ⟨fun h => (hf _).1 ((hg m).1 h), fun a ha => ((hf _).2.1 a ha).trans ((hg m).2.1 a ha),
    fun a ha => (hf _).2.2 a ((hg m).2.2 a ha)⟩

theorem Fills.write {n a : Nat} (v : Byte) (ha : a ≤ n + 1) : Fills n fun m => m.write a v := by
  intro m
  refine ⟨fun h => Memory.write_wf h a v, fun b hb => Memory.read_write_other m v (by omega), fun b hb => ?_⟩
  by_cases h : b = a
  · subst h
    unfold Memory.write
    split
    · simp [Memory.read_insert]
    · exact hb
  · rwa [Memory.read_write_other m v h]

theorem Fills.orCell {n a : Nat} (mask : Byte) (ha : a ≤ n + 1) : Fills n fun m => m.orCell a mask := by
  intro m
  cases h : m.read a with
  | none =>
    have e : m.orCell a mask = m := by simp [Memory.orCell, h]
    simp only [e]
    exact ⟨fun h => h, fun _ _ => trivial, fun _ h => h⟩
  | some v =>
    have e : m.orCell a mask = m.write a (v ||| mask) := by simp [Memory.orCell, h]
    simp only [e]
    exact Fills.write _ ha m

theorem Fills.setDigitCell (n seg digit : Nat) (dot : Bool) : Fills n (setDigitCell n seg digit dot) := by
  intro m
  unfold Machine.setDigitCell
  split
  · exact Fills.write _ (by omega) m
  · exact Fills.id n m

theorem Fills.setCharCell (n seg sym : Nat) (dot : Bool) : Fills n (setCharCell n seg sym dot) := by
  intro m
  unfold Machine.setCharCell
  split
  · exact Fills.write _ (by omega) m
  · exact Fills.id n m

theorem Fills.setRawCell (n seg : Nat) (raw : Byte) : Fills n (setRawCell n seg raw) := by
  intro m
  unfold Machine.setRawCell
  split
  · exact Fills.write _ (by omega) m
  · exact Fills.id n m

theorem Fills.store {n : Nat} (a : Nat) (bytes : List Byte) (h : a + bytes.length ≤ n + 2) : Fills n fun m => m.store a bytes := by
  induction bytes generalizing a with
  | nil => exact Fills.id n
  | cons v rest ih =>
    simp only [List.length_cons] at h
    exact Fills.comp (ih (a + 1) (by omega)) (Fills.write v (by omega))

theorem Fills.prepare (n : Nat) : Fills n (prepare n) := Fills.store 0 _ (by simp)

theorem Fills.orPositions {n : Nat} (mask : Byte) (count p : Nat) (h : p + count ≤ n + 2) : Fills n (orPositions mask count p) := by
  induction count generalizing p with
  | zero => exact Fills.id n
  | succ c ih => exact Fills.comp (f := Machine.orPositions mask c (p + 1)) (ih (p + 1) (by omega)) (Fills.orCell (a := p) mask (by omega))

theorem Fills.batteryOverlay (n : Nat) (level : Byte) : Fills n (batteryOverlay n level) := Fills.orPositions _ _ _ (by omega)

theorem Fills.decimalPoint (n decPoint : Nat) : Fills n (decimalPoint n decPoint) := by
  intro m
  unfold Machine.decimalPoint
  split
  · exact Fills.orCell _ (by omega) m
  · exact Fills.id n m

theorem Fills.decimalLoop (n : Nat) (neg suppress : Bool) (fuel p mag : Nat) : Fills n (decimalLoop n neg suppress fuel p mag) := by
  induction fuel generalizing p mag with
  | zero => exact Fills.id n
  | succ f ih =>
    have hset := Fills.setDigitCell n (p - 1) (mag % 10) false
    have hrest := Fills.comp (ih (p + 1) (mag / 10)) hset
    intro m
    rw [Machine.decimalLoop]
    split
    · split
      · split
        · exact Fills.comp (Fills.orCell minusPattern (by omega)) hset m
        · exact hset m
      · split
        · exact hset m
        · exact hrest m
    · exact hrest m

theorem Fills.hexLoop (n : Nat) (suppress : Bool) (fuel p v : Nat) : Fills n (hexLoop n suppress fuel p v) := by
  induction fuel generalizing p v with
  | zero => exact Fills.id n
  | succ f ih =>
    have hset := Fills.setDigitCell n (p - 1) (v % 16) false
    intro m
    rw [Machine.hexLoop]
    split
    · exact hset m
    · exact Fills.comp (ih (p + 1) (v / 16)) hset m

theorem Fills.textLoop (n : Nat) (text : List Byte) : Fills n (textLoop n text) := by
  induction text with
  | nil => exact Fills.id n
  | cons c rest ih => exact Fills.comp (f := Machine.textLoop n rest) ih (Fills.setCharCell n rest.length (uint8 c) false)

theorem Fills.fourDigits (n : Nat) (lo hi : Byte) : Fills n (fourDigits n lo hi) :=
  Fills.comp (f := Machine.setDigitCell n 3 (tens hi) false) (Fills.setDigitCell n 3 _ _)
    (Fills.comp (f := Machine.setDigitCell n 2 (ones hi) false) (Fills.setDigitCell n 2 _ _)
      (Fills.comp (f := Machine.setDigitCell n 1 (tens lo) false) (Fills.setDigitCell n 1 _ _) (Fills.setDigitCell n 0 (ones lo) false)))

/-! ### The effects -/

/-- What one instruction can do when it answers a next state. -/
inductive Effect (i : Instr) (s : State) : State → Prop where
  /-- A request was refused. -/
  | refused (r : RefuseReason) (hi : i.isRequest = true) : Effect i s (s.markRefused r)
  /-- SHOW found an unwritten cell. -/
  | faulted (hi : i = .showFrame) : Effect i s s.markFaulted
  /-- PREPARE or a setter wrote cells: no bus event. The header is left alone, or zeroed. -/
  | stored (x : BitVec 5) (fill : Memory → Memory) (hx : s.n = some x) (hle : x.toNat ≤ 16) (hf : Fills x.toNat fill)
      (hh : (fill s.buf).read 0 = s.buf.read 0 ∨ (fill s.buf).read 0 = some 0#8) (hi : i.isRequest = true) :
      Effect i s (s.setBuf (fill s.buf))
  /-- SHOW, CLEAR or a renderer sent the shifted cells of the filled buffer. -/
  | shown (x : BitVec 5) (fill : Memory → Memory) (cells : List Byte) (hx : s.n = some x) (hle : x.toNat ≤ 16)
      (hf : Fills x.toNat fill) (hc : (fill s.buf).load 0 (x.toNat + 2) = some cells) (hi : i.isRequest = true) :
      Effect i s
        { s.afterDraws 1 with
          buf := (fill s.buf).store 0 (shiftImage cells)
          status := s.answer 0
          events := s.events ++ transaction (shiftImage cells) .tShow (s.answer 0) }
  /-- INIT sent its commands and set `N`. -/
  | initialised (size : Byte) (hi : i = .init size) :
      Effect i s (((sendAll initCodes s).2.setSize (clampSize size)).setStatus (sendAll initCodes s).1)
  /-- POWER_ON or POWER_OFF sent one command. -/
  | commanded (k : Byte) (hi : i.isRequest = true) (hz : ∀ size, i ≠ .init size) :
      Effect i s ((sendCmd k s).setStatus s.nextStatus)
  /-- A wire frame on its own. -/
  | wired (bytes : List Byte) (t : Timeout) (hi : i.isRequest = false) : Effect i s (emit bytes t s)

/-- A renderer or CLEAR that answers a next state sent a frame: its prepared buffer has no unwritten cell in use. -/
theorem render_effect {i : Instr} {s t : State} {x : BitVec 5} {fill : Memory → Memory} (hx : s.n = some x) (hle : x.toNat ≤ 16)
    (hf : Fills x.toNat fill) (hi : i.isRequest = true) (h : render x.toNat fill s = .next t) : Effect i s t := by
  rcases showBuffer_next h with rfl | ⟨cells, hc, rfl⟩
  · exfalso
    have hw : ∀ k, k ≤ x.toNat + 1 → ∃ b, (fill (prepare x.toNat s.buf)).read k = some b := fun k hk =>
      Option.ne_none_iff_exists'.1 ((hf _).2.2 k (by rw [read_prepare _ hle, if_pos hk]; simp))
    choose! p hp using hw
    unfold render at h
    rw [showBuffer_written _ s p hp] at h
    have he := congrArg State.events (Host.Outcome.next.inj h)
    simp [State.markFaulted, transaction] at he
  · exact .shown x (fun m => fill (prepare x.toNat m)) cells hx hle (Fills.comp hf (Fills.prepare _)) hc hi

/-- SAID ONCE: an instruction that answers a next state did one of the effects. -/
theorem exec_effect {i : Instr} {s t : State} (h : exec i s = .next t) : Effect i s t := by
  have stored : ∀ {fill : Nat → Memory → Memory} {i : Instr}, (∀ n, Fills n (fill n)) →
      (∀ n, n ≤ 16 → (fill n s.buf).read 0 = s.buf.read 0 ∨ (fill n s.buf).read 0 = some 0#8) → i.isRequest = true →
      (withSize s fun n => .next (s.setBuf (fill n s.buf))) = .next t → Effect i s t := by
    intro fill i hf hh hi h
    rcases withSize_next h with ⟨_, rfl⟩ | ⟨x, hx, hle, h⟩
    · exact .refused _ hi
    · cases h
      exact .stored x (fill x.toNat) hx hle (hf _) (hh _ hle) hi
  have shown : ∀ {fill : Nat → Memory → Memory} {i : Instr}, (∀ n, Fills n (fill n)) → i.isRequest = true →
      (withSize s fun n => render n (fill n) s) = .next t → Effect i s t := by
    intro fill i hf hi h
    rcases withSize_next h with ⟨_, rfl⟩ | ⟨x, hx, hle, h⟩
    · exact .refused _ hi
    · exact render_effect hx hle (hf _) hi h
  cases i with
  | init size => rw [exec_init] at h; cases h; exact .initialised size rfl
  | clear => exact shown (fill := fun _ => id) (fun n => Fills.id n) rfl h
  | prepare =>
    exact stored (fill := Machine.prepare) Fills.prepare (fun n hn => .inr (by rw [read_prepare _ hn, if_pos (by omega)])) rfl h
  | setDigit seg digit dot =>
    exact stored (fill := fun n => setDigitCell n seg.toNat digit.toNat dot) (fun n => Fills.setDigitCell n _ _ _)
      (fun n hn => .inl (by rw [read_setDigitCell _ hn, if_neg (by omega)])) rfl h
  | setChar seg sym dot =>
    exact stored (fill := fun n => setCharCell n seg.toNat sym.toNat dot) (fun n => Fills.setCharCell n _ _ _)
      (fun n hn => .inl (by rw [read_setCharCell _ hn, if_neg (by omega)])) rfl h
  | setRaw seg raw =>
    exact stored (fill := fun n => setRawCell n seg.toNat raw) (fun n => Fills.setRawCell n _ _)
      (fun n hn => .inl (by rw [read_setRawCell _ hn, if_neg (by omega)])) rfl h
  | showFrame =>
    rw [exec_showFrame] at h
    rcases withSize_next h with ⟨_, rfl⟩ | ⟨x, hx, hle, h⟩
    · exact .refused _ rfl
    · rcases showBuffer_next h with rfl | ⟨cells, hc, rfl⟩
      · exact .faulted rfl
      · exact .shown x id cells hx hle (Fills.id _) hc rfl
  | renderDec value decPoint suppress battery =>
    exact shown (fill := fun n m => batteryOverlay n battery (decimalPoint n decPoint.toNat
        (decimalLoop n (isNegative value) suppress n 1 (magnitude value) m)))
      (fun n => Fills.comp (Fills.batteryOverlay n _) (Fills.comp (Fills.decimalPoint n _) (Fills.decimalLoop n _ _ _ _ _))) rfl h
  | renderHex value suppress battery =>
    exact shown (fill := fun n m => batteryOverlay n battery (hexLoop n suppress n 1 value.toNat m))
      (fun n => Fills.comp (Fills.batteryOverlay n _) (Fills.hexLoop n _ _ _ _)) rfl h
  | renderStr text battery =>
    exact shown (fill := fun n m => batteryOverlay n battery (textLoop n (text.take n) m))
      (fun n => Fills.comp (Fills.batteryOverlay n _) (Fills.textLoop n _)) rfl h
  | renderRaw bytes count =>
    rw [exec_renderRaw] at h
    rcases withSize_next h with ⟨_, rfl⟩ | ⟨x, hx, hle, h⟩
    · exact .refused _ rfl
    · split at h
      · exact render_effect hx hle (Fills.store 1 _ (by simp; omega)) rfl h
      · simp only [refuse, Host.Outcome.next.injEq] at h
        rw [← h]
        exact .refused _ rfl
  | renderClock hours minutes separator =>
    cases separator with
    | false => exact shown (fill := fun n => fourDigits n minutes hours) (fun n => Fills.fourDigits n _ _) rfl h
    | true =>
      exact shown (fill := fun n m => (fourDigits n minutes hours m).orCell 1 dotMask)
        (fun n => Fills.comp (Fills.orCell _ (by omega)) (Fills.fourDigits n _ _)) rfl h
  | renderDate day month =>
    refine shown (fill := fun n m => if 3 ≤ n then (fourDigits n (dateLow day month) (dateHigh day month) m).orCell 3 dotMask
      else fourDigits n (dateLow day month) (dateHigh day month) m) (fun n => ?_) rfl h
    by_cases h3 : 3 ≤ n
    · simp only [h3, if_true]
      exact Fills.comp (Fills.orCell _ (by omega)) (Fills.fourDigits n _ _)
    · simp only [h3, if_false]
      exact Fills.fourDigits n _ _
  | powerOn => rw [exec_powerOn] at h; cases h; exact .commanded _ rfl (by simp)
  | powerOff => rw [exec_powerOff] at h; cases h; exact .commanded _ rfl (by simp)
  | reserved => rw [exec_reserved] at h; cases h; exact .refused _ rfl
  | wireCmd k => rw [exec_wireCmd] at h; cases h; exact .wired _ _ rfl
  | wireWrite data pad => rw [exec_wireWrite] at h; cases h; exact .wired _ _ rfl

end Sys2Proof.Machine
end

