-- ==== Sys2Proof/Laws/PerInstr.lean ====
section
/-! SUPPORT. The per-instruction family `OpField`: which `OP` of the opcode map (R71) an instruction is encoded with. -/

namespace Sys2Proof.Laws.OpField

/-- The `OP` of an instruction in R71's table; the two wire frames have none. -/
def opcode : Instr → Option (BitVec 4)
  | .init _ => some 0x0#4
  | .clear => some 0x1#4
  | .prepare => some 0x2#4
  | .setDigit _ _ _ => some 0x3#4
  | .setChar _ _ _ => some 0x4#4
  | .setRaw _ _ => some 0x5#4
  | .showFrame => some 0x6#4
  | .renderDec _ _ _ _ => some 0x7#4
  | .renderHex _ _ _ => some 0x8#4
  | .renderStr _ _ => some 0x9#4
  | .renderRaw _ _ => some 0xA#4
  | .renderClock _ _ _ => some 0xB#4
  | .renderDate _ _ => some 0xC#4
  | .powerOn => some 0xD#4
  | .powerOff => some 0xE#4
  | .reserved => some 0xF#4
  | .wireCmd _ => none
  | .wireWrite _ _ => none

/-- A request is encoded with its own `OP`, a wire frame as bytes that begin with its marker. -/
def Statement (i : Instr) : Prop :=
  match opcode i with
  | some op => ∃ r, encode i = .request r ∧ r.op = op
  | none => ∃ f0 rest, encode i = .frame (f0 :: rest) ∧ (f0.extractLsb' 5 3 = 0b100#3 ∨ f0.extractLsb' 5 3 = 0b101#3)

theorem init (size : Byte) : Statement (.init size) := ⟨_, rfl, rfl⟩

theorem clear : Statement .clear := ⟨_, rfl, rfl⟩

theorem prepare : Statement .prepare := ⟨_, rfl, rfl⟩

theorem setDigit (seg digit : Byte) (dot : Bool) : Statement (.setDigit seg digit dot) := ⟨_, rfl, rfl⟩

theorem setChar (seg sym : Byte) (dot : Bool) : Statement (.setChar seg sym dot) := ⟨_, rfl, rfl⟩

theorem setRaw (seg raw : Byte) : Statement (.setRaw seg raw) := ⟨_, rfl, rfl⟩

theorem showFrame : Statement .showFrame := ⟨_, rfl, rfl⟩

theorem renderDec (value : Word32) (decPoint : Byte) (suppress : Bool) (battery : Byte) : Statement (.renderDec value decPoint suppress battery) := ⟨_, rfl, rfl⟩

theorem renderHex (value : Word32) (suppress : Bool) (battery : Byte) : Statement (.renderHex value suppress battery) := ⟨_, rfl, rfl⟩

theorem renderStr (text : List Byte) (battery : Byte) : Statement (.renderStr text battery) := ⟨_, rfl, rfl⟩

theorem renderRaw (bytes : List Byte) (count : Nat) : Statement (.renderRaw bytes count) := ⟨_, rfl, rfl⟩

theorem renderClock (hours minutes : Byte) (separator : Bool) : Statement (.renderClock hours minutes separator) := ⟨_, rfl, rfl⟩

theorem renderDate (day month : Byte) : Statement (.renderDate day month) := ⟨_, rfl, rfl⟩

theorem powerOn : Statement .powerOn := ⟨_, rfl, rfl⟩

theorem powerOff : Statement .powerOff := ⟨_, rfl, rfl⟩

theorem reserved : Statement .reserved := ⟨_, rfl, rfl⟩

theorem wireCmd (k : Byte) : Statement (.wireCmd k) := ⟨_, _, rfl, .inl (by revert k; decide)⟩

theorem wireWrite (data : List Byte) (pad : BitVec 7) : Statement (.wireWrite data pad) := ⟨_, _, rfl, .inr (by decide)⟩

end Sys2Proof.Laws.OpField
end

