-- ==== Sys2Proof/Tests/Slice0.lean ====
section
/-! SUPPORT. The model's own tests. Expected results are the spec's (spec/95_test_vectors.md, named V.. or P.. below, or the rule
cited). The second part gives, for every obligation with hypotheses, a state and operands that meet them. -/

namespace Sys2Proof.Tests

open Sys2Proof.Machine

/-! ### Helpers -/

/-- A state with `N` set and nothing written; the transport answers OK to the next transmit. -/
def ready (n : Nat) : State := { State.reset with n := some (BitVec.ofNat 5 n), transport := [.ok] }

/-- The same with the cells from `B[0]` on written. -/
def holding (n : Nat) (cells : List Byte) : State := { ready n with buf := Memory.store [] 0 cells }

/-- The first `count` cells after a request. -/
def cellsAfter (count : Nat) (r : Result) : Option (List Byte) :=
  match r with
  | .next t => t.buf.load 0 count
  | _ => none

/-- A fact about the next state. -/
def after (r : Result) (p : State → Bool) : Bool :=
  match r with
  | .next t => p t
  | _ => false

/-! ### Well-formedness -/

/-- A write frame of one pattern is too short (R7, R74). -/
theorem test_wellFormed_refuses_short : (Instr.wireWrite [0#8] 0#7).wellFormed = false := by decide

/-- A write frame of 17 patterns is too long (R7, R74). -/
theorem test_wellFormed_refuses_long : (Instr.wireWrite (List.replicate 17 0#8) 0#7).wellFormed = false := by decide

/-! ### Decoding: words written out from the encodings -/

/-- R71: INIT is OP 0000. -/
theorem test_decode_init : decode (.request { Request.ofOp 0b0000#4 with size := 6#8 }) = .ok (.init 6#8) := by decide
/-- R71: CLEAR is OP 0001. -/
theorem test_decode_clear : decode (.request (Request.ofOp 0b0001#4)) = .ok .clear := by decide
/-- R71: PREPARE is OP 0010. -/
theorem test_decode_prepare : decode (.request (Request.ofOp 0b0010#4)) = .ok .prepare := by decide
/-- R71: SET_DIGIT is OP 0011. -/
theorem test_decode_setDigit :
    decode (.request { Request.ofOp 0b0011#4 with seg := 3#8, digit := 9#8, dot := 1#1 }) = .ok (.setDigit 3#8 9#8 true) := by decide
/-- R71: SET_CHAR is OP 0100. -/
theorem test_decode_setChar :
    decode (.request { Request.ofOp 0b0100#4 with seg := 1#8, sym := 65#8 }) = .ok (.setChar 1#8 65#8 false) := by decide
/-- R71: SET_RAW is OP 0101. -/
theorem test_decode_setRaw :
    decode (.request { Request.ofOp 0b0101#4 with seg := 4#8, raw := 0x55#8 }) = .ok (.setRaw 4#8 0x55#8) := by decide
/-- R71: SHOW is OP 0110. -/
theorem test_decode_show : decode (.request (Request.ofOp 0b0110#4)) = .ok .showFrame := by decide
/-- P3 step 2: OP=0x7, value=0xFFFFFB2E, dec_point=2, suppress=1, battery=2. -/
theorem test_decode_renderDec :
    decode (.request { Request.ofOp 0b0111#4 with value := 0xFFFFFB2E#32, decPoint := 2#8, suppress := 1#1, battery := 2#8 }) =
      .ok (.renderDec 0xFFFFFB2E#32 2#8 true 2#8) := by decide
/-- P3 step 2: that value is -1234 (R72). -/
theorem test_value_is_signed : int32 0xFFFFFB2E#32 = -1234 := by decide
/-- R71: RENDER_HEX is OP 1000. -/
theorem test_decode_renderHex :
    decode (.request { Request.ofOp 0b1000#4 with value := 0x1F#32, battery := 2#8 }) = .ok (.renderHex 0x1F#32 false 2#8) := by decide
/-- P4 step 2: OP=0x9, text=[61,62,63], battery=3. -/
theorem test_decode_renderStr :
    decode (.request { Request.ofOp 0b1001#4 with text := [0x61#8, 0x62#8, 0x63#8], battery := 3#8 }) =
      .ok (.renderStr [0x61#8, 0x62#8, 0x63#8] 3#8) := by decide
/-- P1 step 2: OP=0xA, bytes=[12,34,56,78], count=4. -/
theorem test_decode_renderRaw :
    decode (.request { Request.ofOp 0b1010#4 with bytes := [0x12#8, 0x34#8, 0x56#8, 0x78#8], count := 4 }) =
      .ok (.renderRaw [0x12#8, 0x34#8, 0x56#8, 0x78#8] 4) := by decide
/-- R71: RENDER_CLOCK is OP 1011. -/
theorem test_decode_renderClock :
    decode (.request { Request.ofOp 0b1011#4 with hours := 13#8, minutes := 45#8, separator := 1#1 }) =
      .ok (.renderClock 13#8 45#8 true) := by decide
/-- R71: RENDER_DATE is OP 1100. -/
theorem test_decode_renderDate :
    decode (.request { Request.ofOp 0b1100#4 with day := 31#8, month := 12#8 }) = .ok (.renderDate 31#8 12#8) := by decide
/-- R71: POWER_ON is OP 1101. -/
theorem test_decode_powerOn : decode (.request (Request.ofOp 0b1101#4)) = .ok .powerOn := by decide
/-- R71: POWER_OFF is OP 1110. -/
theorem test_decode_powerOff : decode (.request (Request.ofOp 0b1110#4)) = .ok .powerOff := by decide
/-- R79: OP 1111 is reserved. -/
theorem test_decode_reserved : decode (.request (Request.ofOp 0b1111#4)) = .ok .reserved := by decide
/-- V26: the bytes 85 20 are the command frame of K = 0x29. -/
theorem test_decode_wireCmd : decode (.frame [0x85#8, 0x20#8]) = .ok (.wireCmd 0x29#8) := by decide
/-- V8: the bytes A0 7F 87 80 are the write frame of FF and 0F with padding 0. -/
theorem test_decode_wireWrite :
    decode (.frame [0xA0#8, 0x7F#8, 0x87#8, 0x80#8]) = .ok (.wireWrite [0xFF#8, 0x0F#8] 0#7) := by decide
/-- R77: the read marker 110 is no frame of the block. -/
theorem test_decode_refuses_marker : decode (.frame [0xC0#8, 0x00#8]) = .error .unknownMarker := by decide
/-- R73: the low 5 bits of a command frame are 0. -/
theorem test_decode_refuses_padding : decode (.frame [0x80#8, 0x01#8]) = .error .badPadding := by decide
/-- R74: the address is 0 in all its 6 bits. -/
theorem test_decode_refuses_address : decode (.frame [0xA0#8, 0x80#8, 0x00#8, 0x00#8]) = .error .badAddress := by decide
/-- R77: a command frame has 2 bytes. -/
theorem test_decode_refuses_length : decode (.frame [0x80#8, 0x00#8, 0x00#8]) = .error .badLength := by decide
/-- The encoder on P3 step 2's request. -/
theorem test_encode_renderDec :
    encode (.renderDec 0xFFFFFB2E#32 2#8 true 2#8) =
      .request { Request.ofOp 0x7#4 with value := 0xFFFFFB2E#32, decPoint := 2#8, suppress := 1#1, battery := 2#8 } := by decide

/-! ### The command encoder: V20 to V29 -/

theorem test_encodeCommand_vectors :
    [defaultCode .sysDis, defaultCode .sysEn, defaultCode .lcdOff, defaultCode .lcdOn, defaultCode .wdtDis, defaultCode .rc256K,
      defaultCode (.biasThird .four), 0xFF#8, defaultCode .normal, 0x80#8].map encodeCommand =
    [[0x80#8, 0x00#8], [0x80#8, 0x20#8], [0x80#8, 0x40#8], [0x80#8, 0x60#8], [0x80#8, 0xA0#8], [0x83#8, 0x00#8],
      [0x85#8, 0x20#8], [0x9F#8, 0xE0#8], [0x9C#8, 0x60#8], [0x90#8, 0x00#8]] := by decide

/-! ### The frame shifter: V8, V32, V33, V34, V35, V39 -/

theorem test_shift_V8 : shiftImage [0x00#8, 0xFF#8, 0x0F#8, 0x00#8] = [0xA0#8, 0x7F#8, 0x87#8, 0x80#8] := by decide
theorem test_shift_V32 :
    shiftImage [0x00#8, 0x01#8, 0xFF#8, 0x80#8, 0x03#8, 0x00#8] = [0xA0#8, 0x00#8, 0xFF#8, 0xC0#8, 0x01#8, 0x80#8] := by decide
theorem test_shift_V33 :
    shiftImage [0xA0#8, 0x00#8, 0xFF#8, 0xC0#8, 0x01#8, 0x80#8] = [0xA0#8, 0x00#8, 0x7F#8, 0xE0#8, 0x00#8, 0xC0#8] := by decide
theorem test_shift_V34 : shiftImage [0xFF#8, 0xFF#8, 0xFF#8, 0xFF#8] = [0xA0#8, 0x7F#8, 0xFF#8, 0xFF#8] := by decide
theorem test_shift_V35 : shiftImage [0x00#8, 0x00#8, 0x00#8, 0x03#8] = [0xA0#8, 0x00#8, 0x00#8, 0x01#8] := by decide
theorem test_shift_V39 :
    shiftImage [0x00#8, 0x01#8, 0x02#8, 0x03#8, 0x04#8, 0x05#8, 0x06#8, 0x07#8, 0x08#8, 0x09#8, 0x0A#8, 0x0B#8, 0x0C#8, 0x0D#8,
      0x0E#8, 0x0F#8, 0x10#8, 0x00#8] =
    [0xA0#8, 0x00#8, 0x81#8, 0x01#8, 0x82#8, 0x02#8, 0x83#8, 0x03#8, 0x84#8, 0x04#8, 0x85#8, 0x05#8, 0x86#8, 0x06#8, 0x87#8,
      0x07#8, 0x88#8, 0x00#8] := by decide

/-! ### Requests -/

/-- V90a, V90d: INIT 0 gives N = 2, INIT 255 gives N = 16. -/
theorem test_init_clamps :
    after (exec (.init 0#8) State.reset) (fun t => t.n == some 2#5) ∧
    after (exec (.init 255#8) State.reset) (fun t => t.n == some 16#5) := by decide

/-- P5 step 2: transmit 3 of INIT returns FAIL, so STATUS is FAIL and N is set. -/
theorem test_init_fail :
    after (exec (.init 4#8) { State.reset with transport := [.ok, .ok, .fail, .ok, .ok, .ok] })
      (fun t => t.status == .fail && t.n == some 4#5 && t.transport == []) := by decide

/-- V93: CLEAR with N = 4. -/
theorem test_clear_V93 : cellsAfter 6 (exec .clear (ready 4)) = some [0xA0#8, 0x00#8, 0x00#8, 0x00#8, 0x00#8, 0x00#8] := by decide

/-- V49: PREPARE zeroes the header and the trailer too. -/
theorem test_prepare_V49 :
    cellsAfter 6 (exec .prepare (holding 4 [0xA0#8, 0x09#8, 0x1A#8, 0x2B#8, 0x3C#8, 0x00#8])) =
      some [0x00#8, 0x00#8, 0x00#8, 0x00#8, 0x00#8, 0x00#8] := by decide

/-- V46: the setter assigns, so what the cell held is lost. -/
theorem test_setDigit_V46 :
    cellsAfter 6 (exec (.setDigit 0#8 8#8 true) (holding 4 [0#8, 0xFF#8, 0#8, 0#8, 0#8, 0#8])) =
      some [0#8, digitGlyph 8 ||| dotMask, 0#8, 0#8, 0#8, 0#8] := rfl

/-- V42: digit 16 does nothing, and the dot is not written either. -/
theorem test_setDigit_V42 :
    cellsAfter 6 (exec (.setDigit 0#8 16#8 true) (holding 4 [0#8, 0#8, 0#8, 0#8, 0#8, 0#8])) =
      some [0#8, 0#8, 0#8, 0#8, 0#8, 0#8] := by decide

/-- V44c: symbol 95 is the last cell of the ROM, with the dot. -/
theorem test_setChar_V44c :
    cellsAfter 6 (exec (.setChar 0#8 95#8 true) (holding 4 [0#8, 0#8, 0#8, 0#8, 0#8, 0#8])) =
      some [0#8, Config.charRom Config.mode 55 ||| dotMask, 0#8, 0#8, 0#8, 0#8] := rfl

/-- V44a, V44d: symbols 39 and 96 do nothing. -/
theorem test_setChar_out_of_range :
    cellsAfter 3 (exec (.setChar 0#8 39#8 false) (holding 4 [0#8, 7#8, 0#8])) = some [0#8, 7#8, 0#8] ∧
    cellsAfter 3 (exec (.setChar 0#8 96#8 false) (holding 4 [0#8, 7#8, 0#8])) = some [0#8, 7#8, 0#8] := by decide

/-- V47: a raw pattern in the last position. -/
theorem test_setRaw_V47 :
    cellsAfter 6 (exec (.setRaw 3#8 0xFF#8) (holding 4 [0#8, 0#8, 0#8, 0#8, 0#8, 0#8])) =
      some [0#8, 0#8, 0#8, 0#8, 0xFF#8, 0#8] := by decide

/-- P2 step 7: seg = N does nothing, so the trailer is out of reach. -/
theorem test_setRaw_at_N : exec (.setRaw 4#8 0x55#8) (ready 4) = .next (ready 4) := rfl

/-- V31: the frame of 12 34 56 78 is recorded as one transaction. -/
theorem test_show_V31 :
    after (exec .showFrame (holding 4 [0x00#8, 0x12#8, 0x34#8, 0x56#8, 0x78#8, 0x00#8])) (fun t => t.events ==
      [.select true, .transmit [0xA0#8, 0x09#8, 0x1A#8, 0x2B#8, 0x3C#8, 0x00#8] .tShow .ok, .select false]) := by decide

/-- V96: SHOW with nothing written sets FAULTED, sends nothing and writes nothing. -/
theorem test_show_V96 :
    after (exec .showFrame (ready 4)) (fun t => t.faulted && t.events == [] && t.buf == []) := by decide

/-- V64: digits, dot, battery and minus together. -/
theorem test_renderDec_V64 :
    cellsAfter 8 (exec (.renderDec 0xFFFFFB2E#32 2#8 true 2#8) (ready 6)) =
      some (shiftImage [0#8, (digitGlyph 4 ||| 0#8) ||| batMask, ((digitGlyph 3 ||| 0#8) ||| dotMask) ||| batMask,
        digitGlyph 2 ||| 0#8, digitGlyph 1 ||| 0#8, 0#8 ||| minusPattern, 0#8, 0#8]) := rfl

/-- V52: leading zeros are filled. -/
theorem test_renderDec_V52 :
    cellsAfter 6 (exec (.renderDec 7#32 0#8 false 0#8) (ready 4)) =
      some (shiftImage [0#8, digitGlyph 7 ||| 0#8, digitGlyph 0 ||| 0#8, digitGlyph 0 ||| 0#8, digitGlyph 0 ||| 0#8, 0#8]) := rfl

/-- V72: inner zeros are kept. -/
theorem test_renderHex_V72 :
    cellsAfter 6 (exec (.renderHex 0x100#32 true 0#8) (ready 4)) =
      some (shiftImage [0#8, digitGlyph 0 ||| 0#8, digitGlyph 0 ||| 0#8, digitGlyph 1 ||| 0#8, 0#8, 0#8]) := rfl

/-- V68: the low nibbles are kept. -/
theorem test_renderHex_V68 :
    cellsAfter 6 (exec (.renderHex 0x12345#32 false 0#8) (ready 4)) =
      some (shiftImage [0#8, digitGlyph 5 ||| 0#8, digitGlyph 4 ||| 0#8, digitGlyph 3 ||| 0#8, digitGlyph 2 ||| 0#8, 0#8]) := rfl

/-- V75: every character out of range, battery 1. -/
theorem test_renderStr_V75 :
    cellsAfter 6 (exec (.renderStr [97#8, 98#8, 99#8] 1#8) (ready 4)) =
      some [0xA0#8, 0x40#8, 0x00#8, 0x00#8, 0x00#8, 0x00#8] := by decide

/-- V74: the first 4 characters of HELLO, right to left. -/
theorem test_renderStr_V74 :
    cellsAfter 6 (exec (.renderStr [72#8, 69#8, 76#8, 76#8, 79#8] 0#8) (ready 4)) =
      some (shiftImage [0#8, charGlyph 76 ||| 0#8, charGlyph 76 ||| 0#8, charGlyph 69 ||| 0#8, charGlyph 72 ||| 0#8, 0#8]) := rfl

/-- V98: the same buffer whatever the transport answers; STATUS reports the failure. -/
theorem test_renderRaw_V98 :
    after (exec (.renderRaw [0x12#8, 0x34#8, 0x56#8, 0x78#8] 4) { ready 4 with transport := [.fail] }) (fun t =>
      t.status == .fail && t.buf.load 0 6 == some [0xA0#8, 0x09#8, 0x1A#8, 0x2B#8, 0x3C#8, 0x00#8]) := by decide

/-- V82: more bytes asked for than there are. -/
theorem test_renderRaw_V82 :
    exec (.renderRaw [0x12#8] 5) (ready 4) =
      .next { ready 4 with refused := true, refusals := [.rawCountExceedsData] } := rfl

/-- V87: with N = 2 the hours are dropped. -/
theorem test_renderClock_V87 :
    cellsAfter 4 (exec (.renderClock 12#8 34#8 true) (ready 2)) =
      some (shiftImage [0#8, (digitGlyph 4 ||| 0#8) ||| dotMask, digitGlyph 3 ||| 0#8, 0#8]) := rfl

/-- V88: a tens digit of 20 leaves its position blank. -/
theorem test_renderClock_V88 :
    cellsAfter 6 (exec (.renderClock 200#8 99#8 false) (ready 4)) =
      some (shiftImage [0#8, digitGlyph 9 ||| 0#8, digitGlyph 9 ||| 0#8, digitGlyph 0 ||| 0#8, 0#8, 0#8]) := rfl

/-- V89a, V89b: the two layouts of 31 December. -/
theorem test_renderDate_V89 :
    (∀ p, p ∈ [1, 2, 3, 4] → datePattern .dayHigh 31#8 12#8 4 p =
      [digitGlyph 2, digitGlyph 1, digitGlyph 1 ||| dotMask, digitGlyph 3].getD (p - 1) 0#8) ∧
    (∀ p, p ∈ [1, 2, 3, 4] → datePattern .monthHigh 31#8 12#8 4 p =
      [digitGlyph 1, digitGlyph 3, digitGlyph 2 ||| dotMask, digitGlyph 1].getD (p - 1) 0#8) := by
  simp [datePattern, fourDigitPattern, digitPattern]

/-- V89c: with N = 2 there is no dot. -/
theorem test_renderDate_V89c :
    cellsAfter 4 (exec (.renderDate 31#8 12#8) (ready 2)) =
      some (shiftImage [0#8, digitGlyph (ones (dateLow 31#8 12#8)) ||| 0#8, digitGlyph (tens (dateLow 31#8 12#8)) ||| 0#8, 0#8]) := by
  cases h : Config.dateLayout with
  | dayHigh =>
    have e1 : dateLow 31#8 12#8 = 12#8 := by simp [dateLow, h]
    have e2 : dateHigh 31#8 12#8 = 31#8 := by simp [dateHigh, h]
    simp only [exec, execRenderDate, e1, e2]; rfl
  | monthHigh =>
    have e1 : dateLow 31#8 12#8 = 31#8 := by simp [dateLow, h]
    have e2 : dateHigh 31#8 12#8 = 12#8 := by simp [dateHigh, h]
    simp only [exec, execRenderDate, e1, e2]; rfl

/-- V95: POWER_ON is legal at reset, and is one command transaction. -/
theorem test_powerOn_V95 :
    exec .powerOn { State.reset with transport := [.ok] } = .next { State.reset with events :=
      [.select true, .transmit (encodeCommand (Config.cmdCode .lcdOn)) .tCmd .ok, .select false] } := rfl

/-- R213: POWER_OFF sends LCD OFF and leaves `B` and `N`. -/
theorem test_powerOff :
    exec .powerOff (ready 4) = .next { ready 4 with
      transport := []
      events := [.select true, .transmit (encodeCommand (Config.cmdCode .lcdOff)) .tCmd .ok, .select false] } := rfl

/-- V97: the reserved opcode is refused, `N` set or not. -/
theorem test_reserved_V97 :
    after (exec .reserved State.reset) (fun t => t.refused && t.refusals == [.reservedOpcode] && t.n == none) := by decide

/-- V26: the wire frame of K = 0x29. -/
theorem test_wireCmd_V26 :
    after (exec (.wireCmd 0x29#8) (ready 4)) (fun t => t.events ==
      [.select true, .transmit [0x85#8, 0x20#8] .tCmd .ok, .select false]) := by decide

/-- V8: the wire frame of FF and 0F. -/
theorem test_wireWrite_V8 :
    after (exec (.wireWrite [0xFF#8, 0x0F#8] 0#7) (ready 2)) (fun t => t.events ==
      [.select true, .transmit [0xA0#8, 0x7F#8, 0x87#8, 0x80#8] .tShow .ok, .select false]) := by decide

/-- P5 step 1: a step from reset with SHOW waiting is refused, and the request is used up. -/
theorem test_step_P5 :
    after (step (State.reset.withFetchWord 8 0x6)) (fun t =>
      t.refused && t.refusals == [.notInitialised] && t.events == [] && t.requests == []) := by decide

/-! ### Witnesses: the hypotheses of each obligation can be met -/

theorem ready_hasSize_min : (ready 2).hasSize 2 := ⟨rfl, by decide, by decide⟩
theorem ready_hasSize_max : (ready 16).hasSize 16 := ⟨rfl, by decide, by decide⟩
theorem ready_hasSize_four : (ready 4).hasSize 4 := ⟨rfl, by decide, by decide⟩
theorem reset_unset : State.reset.n = none := rfl

/-- The invariant at reset with a request waiting. -/
theorem waiting_inv (w : Nat) : (State.reset.withFetchWord 8 w).Inv :=
  ⟨.inl rfl, by show Memory.wf []; decide, .inl rfl, by show (false = true ↔ ([] : List RefuseReason) ≠ []); simp, rfl⟩

theorem test_witness_OpcodeMapSelectsOperation : ∀ op : BitVec 4, (Request.ofOp op).op = op := fun _ => rfl

theorem test_witness_DecodeEncodeRoundTrip :
    (Instr.wireWrite (List.replicate 2 0#8) 0#7).wellFormed = true ∧ (Instr.wireWrite (List.replicate 16 0#8) 0#7).wellFormed = true ∧
      (Instr.renderRaw [] 300).wellFormed = true := by decide

theorem test_witness_StepRunsNextRequest :
    ∃ r, (State.reset.withFetchWord 8 0x1).requests = [r] ∧ decode (.request r) = .ok .clear ∧ State.reset.requests = [] :=
  ⟨Request.ofOp 0x1#4, rfl, rfl, rfl⟩

theorem test_witness_StepKeepsInvariant :
    (State.reset.withFetchWord 8 0xD).Inv ∧ ∃ t, step (State.reset.withFetchWord 8 0xD) = .next t := ⟨waiting_inv _, _, rfl⟩

theorem test_witness_StepNeverStops : State.reset.sizeOk ∧ (ready 2).sizeOk ∧ (ready 16).sizeOk :=
  ⟨.inl rfl, .inr ⟨2, ready_hasSize_min⟩, .inr ⟨16, ready_hasSize_max⟩⟩

theorem test_witness_StepKeepsMarksAndRecord :
    ∃ t, step { State.reset.withFetchWord 8 0x6 with faulted := true, refused := true } = .next t := ⟨_, rfl⟩

theorem test_witness_OnlyInitWritesSize :
    (∀ size, Instr.powerOn ≠ .init size) ∧ ∃ t, exec .powerOn (ready 4) = .next t := ⟨by simp, _, rfl⟩

theorem test_witness_CellsPastTrailerUntouched :
    (∃ t, exec .prepare State.reset = .next t ∧ State.reset.n = none) ∧
    ∃ t, exec .prepare (ready 2) = .next t ∧ (ready 2).n = some 2#5 ∧ (2#5).toNat + 1 < 4 := ⟨⟨_, rfl, rfl⟩, _, rfl, rfl, by decide⟩

theorem test_witness_OnlyShowFaults :
    ∃ t, exec .showFrame (ready 16) = .next t ∧ t.faulted ≠ (ready 16).faulted := ⟨_, rfl, by decide⟩

theorem test_witness_StatusFoldsTransmits :
    Instr.isRequest .prepare = true ∧ Instr.isRequest .powerOn = true ∧
    (∃ t, exec .prepare (ready 2) = .next t ∧ t.events = (ready 2).events ++ [] ∧ statusesOf [] = []) ∧
    ∃ t, exec .powerOn (ready 2) = .next t ∧
      t.events = (ready 2).events ++ transaction (encodeCommand (Config.cmdCode .lcdOn)) .tCmd .ok ∧
      statusesOf (transaction (encodeCommand (Config.cmdCode .lcdOn)) .tCmd .ok) ≠ [] :=
  ⟨rfl, rfl, ⟨_, rfl, rfl, rfl⟩, _, rfl, rfl, by simp [transaction, statusesOf]⟩

theorem test_witness_TransportStatusChangesNothingElse : ∃ t, exec .powerOn (ready 4) = .next t := ⟨_, rfl⟩

theorem test_witness_RequestsEmitWholeLegalFrames :
    Instr.isRequest .clear = true ∧ (ready 16).sizeOk ∧ ∃ t, exec .clear (ready 16) = .next t :=
  ⟨rfl, .inr ⟨16, ready_hasSize_max⟩, _, rfl⟩

theorem test_witness_RequestsBeforeInitRefused :
    Instr.needsSize .showFrame = true ∧ Instr.needsSize (.renderRaw [] 1) = true ∧ State.reset.n = none := ⟨rfl, rfl, rfl⟩

theorem test_witness_ReservedOpcodeRefused : (Request.ofOp 0xF#4).op = 0xF#4 := rfl

theorem test_witness_unset_and_set : State.reset.n = none ∧ (ready 2).hasSize 2 ∧ (ready 16).hasSize 16 :=
  ⟨rfl, ready_hasSize_min, ready_hasSize_max⟩

/-- SetDigitWritesPosition, SetCharWritesPosition, SetRawWritesPosition, OutOfRangeSettersDoNothing: both sides of each bound. -/
theorem test_witness_setter_bounds :
    (ready 4).hasSize 4 ∧ ((3#8).toNat < 4 ∧ (15#8).toNat ≤ 15) ∧ (4 ≤ (4#8).toNat ∧ 15 < (16#8).toNat) ∧
    (40 ≤ (40#8).toNat ∧ (95#8).toNat ≤ 95) ∧ ((39#8).toNat < 40 ∧ 95 < (96#8).toNat) :=
  ⟨ready_hasSize_four, by decide⟩

/-- ShowShiftsAndTransmits, ShowLeavesWireForm, ShowSendsWriteFrameStream, RepeatedShowShiftsWireImage: all cells in use written;
and, for the fault, all but the trailer. -/
theorem test_witness_show_cells :
    ((holding 2 [0xA0#8, 0x40#8, 0x40#8, 0x00#8]).hasSize 2 ∧
      ∀ k, k ≤ 2 + 1 → (holding 2 [0xA0#8, 0x40#8, 0x40#8, 0x00#8]).buf.read k =
        some (([0xA0#8, 0x40#8, 0x40#8, 0x00#8] : List Byte).getD k 0#8)) ∧
    ((holding 2 [0#8, 0#8, 0#8]).hasSize 2 ∧ ∃ k, k ≤ 2 + 1 ∧ (holding 2 [0#8, 0#8, 0#8]).buf.read k = none) := by
  refine ⟨⟨⟨rfl, by decide, by decide⟩, fun k hk => ?_⟩, ⟨rfl, by decide, by decide⟩, 3, by decide, by decide⟩
  have : k = 0 ∨ k = 1 ∨ k = 2 ∨ k = 3 := by omega
  rcases this with rfl | rfl | rfl | rfl <;> rfl

theorem test_witness_ShowAfterInitAloneFaults : ∀ a, State.reset.buf.read a = none := fun _ => rfl

/-- RenderRawCopiesBytes: the count that just fits, and one more. -/
theorem test_witness_RenderRawCopiesBytes :
    (ready 4).hasSize 4 ∧ min 2 4 ≤ [1#8, 2#8].length ∧ ¬ min 3 4 ≤ [1#8, 2#8].length := ⟨ready_hasSize_four, by decide, by decide⟩

/-- BatteryOverlaySetsLowPositions: the largest N, and a position on each side of the overlay. -/
theorem test_witness_BatteryOverlaySetsLowPositions :
    (16 ≤ 16) ∧ (1 ≤ 3 ∧ 3 ≤ min (min (7#8).toNat 3) 16) ∧ ¬ (1 ≤ 4 ∧ 4 ≤ min (min (7#8).toNat 3) 16) := by decide

/-- MinimalBootShows, RenderedFramesEndInZeroPadding: the forms of CLEAR and RENDER_RAW. -/
theorem test_witness_rendered_forms :
    (ready 2).hasSize 2 ∧ (∃ t, exec .clear (ready 2) = .next t) ∧
    (∃ (x : List Byte) (c : Nat), Instr.renderRaw [1#8, 2#8] 2 = .renderRaw x c ∧ c ≤ x.length ∧ min c 2 ≤ x.length) ∧
    ∃ t, exec (.renderRaw [1#8, 2#8] 2) (ready 2) = .next t :=
  ⟨ready_hasSize_min, ⟨_, rfl⟩, ⟨_, _, rfl, by decide, by decide⟩, _, rfl⟩

theorem test_witness_WireFramesAreTransactions :
    (Instr.wireWrite [1#8, 2#8] 0#7).wellFormed = true ∧ (Instr.wireWrite (List.replicate 16 0#8) 0#7).wellFormed = true := by decide

/-- SettersAreIdempotent, SettersMissHeaderAndTrailer. -/
theorem test_witness_setters :
    (ready 16).hasSize 16 ∧ ∃ seg raw, Instr.setRaw 15#8 0xFF#8 = .setRaw seg raw := ⟨ready_hasSize_max, _, _, rfl⟩

end Sys2Proof.Tests
end

/-! ### One step of the machine

What the decoder selects, what one step is in terms of `Effect`, and the two facts every run keeps: the invariant (R21, R52, R77,
R78, R236) and the growing record (R235, R236, D29). -/

namespace Sys2Proof.Machine

/-- No `OP` selects a wire frame (R70, R75). -/
theorem decodeRequest_isRequest (r : Request) : (decodeRequest r).isRequest = true := by
  unfold decodeRequest
  split <;> rfl

/-- A step does nothing, or it takes the next request and does one of its effects. -/
theorem step_effect {s t : State} (h : step s = .next t) :
    t = s ∨ ∃ r rest, s.requests = r :: rest ∧ Effect (decodeRequest r) { s with requests := rest } t := by
  unfold step at h
  split at h
  · exact .inl (Host.Outcome.next.inj h).symm
  · rename_i r rest hr
    exact .inr ⟨r, rest, hr, exec_effect h⟩

/-- What every single command keeps, a sequence of commands keeps. -/
theorem sendAll_keeps {P : State → Prop} (hcmd : ∀ k s, P s → P (sendCmd k s)) (codes : List Byte) {s : State} (hs : P s) :
    P (sendAll codes s).2 := by
  induction codes generalizing s with
  | nil => exact hs
  | cons k rest ih => exact ih (hcmd k s hs)

/-! ### Legal frames and events -/

/-- Whole legal transactions stay so with one more legal frame after them (R77, R78). -/
theorem legalEvents_append_transaction {evs : List BusEvent} {bytes : List Byte} {t : Timeout} (h : legalEvents evs = true)
    (hf : legalFrame bytes t = true) (x : BusStatus) : legalEvents (evs ++ transaction bytes t x) = true := by
  induction evs using legalEvents.induct with
  | case1 => simpa [transaction, legalEvents] using hf
  | case2 b u y rest ih =>
    simp only [legalEvents, Bool.and_eq_true] at h
    simp only [List.cons_append, legalEvents, Bool.and_eq_true]
    exact ⟨h.1, ih h.2⟩
  | case3 => simp [legalEvents] at h

/-- A command frame is marker `100`, the code and five zeros (R73, R100). -/
theorem legalFrame_encodeCommand (k : Byte) : legalFrame (encodeCommand k) .tCmd = true := by
  have hmark : (0x80#8 ||| k >>> 3).extractLsb' 5 3 = 0b100#3 := by
    refine BitVec.eq_of_getLsbD_eq fun i hi => ?_
    interval_cases i <;> simp
  have hpad : (k <<< 5).extractLsb' 0 5 = 0#5 := by
    refine BitVec.eq_of_getLsbD_eq fun i hi => ?_
    interval_cases i <;> simp
  simp [legalFrame, encodeCommand, hmark, hpad]

/-- The shifted cells of a buffer in use start with the header `0xA0` (R52, R150). -/
theorem shiftImage_header {cells : List Byte} (h : cells ≠ []) : (shiftImage cells)[0]? = some 0xA0#8 := by
  cases cells with
  | nil => exact absurd rfl h
  | cons c rest => rfl

/-- The shifted cells of `N + 2` cells are a write frame of address 0 (R74, R150). -/
theorem legalFrame_shiftImage {cells : List Byte} {n : Nat} (hlen : cells.length = n + 2) (hlo : minSize ≤ n) (hhi : n ≤ maxSize) :
    legalFrame (shiftImage cells) .tShow = true := by
  match cells, hlen with
  | header :: first :: rest, hlen =>
    have haddr : (shiftWindow header first &&& 0x7F#8).extractLsb' 7 1 = 0#1 := by
      refine BitVec.eq_of_getLsbD_eq fun i hi => ?_
      interval_cases i; simp
    have hrest : rest.length = n := by simpa using hlen
    simp [shiftImage, shiftTail, clearAddressBit, legalFrame, shiftTail_length, haddr, hrest, hlo, hhi]

/-! ### What keeps the invariant -/

/-- A number in the register `N` is in `[2,16]` (R21). -/
theorem State.sizeOk.bounds {s : State} (h : s.sizeOk) {x : BitVec 5} (hx : s.n = some x) :
    minSize ≤ x.toNat ∧ x.toNat ≤ maxSize := by
  rcases h with hn | ⟨n, hn⟩
  · simp [hn] at hx
  · obtain ⟨y, hy, rfl⟩ := State.hasSize_toNat hn
    obtain rfl : y = x := Option.some.inj (hy.symm.trans hx)
    exact hn.2

/-- What INIT writes to `N` is in `[2,16]` (R211). -/
theorem State.sizeOk_setSize_clampSize (s : State) (size : Byte) : (s.setSize (clampSize size)).sizeOk :=
  .inr ⟨max minSize (min maxSize size.toNat), rfl, by omega, by simp [minSize, maxSize]⟩

namespace State.Inv

variable {s : State}

theorem wf (h : s.Inv) : s.buf.wf := h.2.1

theorem headerOk (h : s.Inv) : s.headerOk := h.2.2.1

theorem setStatus (h : s.Inv) (x : BusStatus) : (s.setStatus x).Inv := h

theorem setRequests (h : s.Inv) (rest : List Request) : State.Inv { s with requests := rest } := h

theorem markFaulted (h : s.Inv) : s.markFaulted.Inv := h

theorem markRefused (h : s.Inv) (r : RefuseReason) : (s.markRefused r).Inv := by
  obtain ⟨hsize, hwf, hheader, -, hevents⟩ := h
  exact ⟨hsize, hwf, hheader, by simp, hevents⟩

/-- A buffer in canonical form with a legal header cell may take the buffer's place. -/
theorem setBuf (h : s.Inv) {m : Memory} (hwf : m.wf) (hheader : (s.setBuf m).headerOk) : (s.setBuf m).Inv := by
  obtain ⟨hsize, -, -, hrefused, hevents⟩ := h
  exact ⟨hsize, hwf, hheader, hrefused, hevents⟩

theorem setSize_clampSize (h : s.Inv) (size : Byte) : (s.setSize (clampSize size)).Inv := by
  obtain ⟨-, hwf, hheader, hrefused, hevents⟩ := h
  exact ⟨s.sizeOk_setSize_clampSize size, hwf, hheader, hrefused, hevents⟩

/-- The transaction of a legal frame keeps the invariant (R77, R78). -/
theorem emit (h : s.Inv) {bytes : List Byte} {t : Timeout} (hf : legalFrame bytes t = true) : (emit bytes t s).Inv := by
  obtain ⟨hsize, hwf, hheader, hrefused, hevents⟩ := h
  rw [emit_eq]
  exact ⟨hsize, hwf, hheader, hrefused, legalEvents_append_transaction hevents hf _⟩

theorem sendCmd (h : s.Inv) (k : Byte) : (sendCmd k s).Inv := h.emit (legalFrame_encodeCommand k)

theorem sendAll (h : s.Inv) (codes : List Byte) : (sendAll codes s).2.Inv :=
  sendAll_keeps (fun k _ hs => hs.sendCmd k) codes h

end State.Inv

/-- The header cell after SHOW's frame was left in the buffer (R52, R151). -/
theorem read_store_shiftImage_zero (m : Memory) {cells : List Byte} (hpos : 0 < cells.length) (hlen : cells.length ≤ capacity) :
    (m.store 0 (shiftImage cells)).read 0 = some 0xA0#8 := by
  rw [Memory.read_store _ _ _ _ (by rw [shiftImage_length]; omega), if_pos ⟨le_rfl, by rw [shiftImage_length]; omega⟩]
  exact shiftImage_header (List.ne_nil_of_length_pos hpos)

/-- Leaving the frame of the filled buffer in place and sending it keeps the invariant. -/
theorem State.Inv.shown {s : State} (h : s.Inv) {x : BitVec 5} {m : Memory} {cells : List Byte} (hx : s.n = some x) (hwf : m.wf)
    (hc : m.load 0 (x.toNat + 2) = some cells) :
    State.Inv { s.afterDraws 1 with
      buf := m.store 0 (shiftImage cells)
      status := s.answer 0
      events := s.events ++ transaction (shiftImage cells) .tShow (s.answer 0) } := by
  obtain ⟨hsize, -, -, hrefused, hevents⟩ := h
  obtain ⟨hlo, hhi⟩ := hsize.bounds hx
  have hlen := Memory.load_length hc
  have hcap : cells.length ≤ capacity := by simp only [hlen, capacity, maxSize] at hhi ⊢; omega
  exact ⟨hsize, Memory.store_wf hwf _ _, .inr (.inr (read_store_shiftImage_zero m (by omega) hcap)), hrefused,
    legalEvents_append_transaction hevents (legalFrame_shiftImage hlen hlo hhi) _⟩

/-- Every effect of a request keeps the invariant. -/
theorem Effect.keeps_inv {i : Instr} {s t : State} (he : Effect i s t) (hi : i.isRequest = true) (h : s.Inv) : t.Inv := by
  cases he with
  | refused r => exact h.markRefused r
  | faulted => exact h.markFaulted
  | stored x fill _ _ hf hh =>
    refine h.setBuf ((hf _).1 h.wf) ?_
    rcases hh with hkept | hzero
    · simpa [State.headerOk, hkept] using h.headerOk
    · exact .inr (.inl hzero)
  | shown x fill cells hx _ hf hc => exact h.shown hx ((hf _).1 h.wf) hc
  | initialised size => exact ((h.sendAll initCodes).setSize_clampSize size).setStatus _
  | commanded k => exact (h.sendCmd k).setStatus _
  | wired bytes t hwire => simp [hi] at hwire

/-- Settles O9: a step's effect is one of a request, and each of those keeps the invariant. -/
theorem stepKeepsInvariant : Obligations.StepKeepsInvariant := by
  intro s t h hstep
  rcases step_effect hstep with rfl | ⟨r, rest, -, he⟩
  · exact h
  · exact he.keeps_inv (decodeRequest_isRequest r) (h.setRequests rest)

/-! ### What a run never takes back -/

/-- `t` has the marks and the record of `s`, and maybe more (R17, R235, R236, D29). -/
structure State.GrowsTo (s t : State) : Prop where
  faulted : s.faulted = true → t.faulted = true
  refused : s.refused = true → t.refused = true
  events : s.events <+: t.events
  refusals : s.refusals <+: t.refusals

theorem State.GrowsTo.refl (s : State) : s.GrowsTo s := ⟨id, id, List.prefix_rfl, List.prefix_rfl⟩

/-- A transaction only adds to the record. -/
theorem State.GrowsTo.emit {s t : State} (h : s.GrowsTo t) (bytes : List Byte) (l : Timeout) : s.GrowsTo (emit bytes l t) := by
  rw [emit_eq]
  exact ⟨h.faulted, h.refused, h.events.trans (List.prefix_append _ _), h.refusals⟩

theorem State.GrowsTo.sendAll {s t : State} (h : s.GrowsTo t) (codes : List Byte) : s.GrowsTo (sendAll codes t).2 :=
  sendAll_keeps (fun _ _ hs => hs.emit _ _) codes h

/-- Every effect keeps the marks and only adds to the record. -/
theorem Effect.growsTo {i : Instr} {s t : State} (he : Effect i s t) : s.GrowsTo t := by
  have hs := State.GrowsTo.refl s
  cases he with
  | refused r => exact ⟨id, fun _ => rfl, List.prefix_rfl, List.prefix_append _ _⟩
  | faulted => exact ⟨fun _ => rfl, id, List.prefix_rfl, List.prefix_rfl⟩
  | stored => exact ⟨id, id, List.prefix_rfl, List.prefix_rfl⟩
  | shown => exact ⟨id, id, List.prefix_append _ _, List.prefix_rfl⟩
  | initialised size =>
    obtain ⟨hfaulted, hrefused, hevents, hrefusals⟩ := hs.sendAll initCodes
    exact ⟨hfaulted, hrefused, hevents, hrefusals⟩
  | commanded k =>
    obtain ⟨hfaulted, hrefused, hevents, hrefusals⟩ := hs.emit (encodeCommand k) .tCmd
    exact ⟨hfaulted, hrefused, hevents, hrefusals⟩
  | wired bytes t => exact hs.emit bytes t

/-- Settles O11: no effect takes back a mark or a record. -/
theorem stepKeepsMarksAndRecord : Obligations.StepKeepsMarksAndRecord := by
  intro s t hstep
  rcases step_effect hstep with rfl | ⟨r, rest, -, he⟩
  · exact ⟨id, id, List.prefix_rfl, List.prefix_rfl⟩
  · obtain ⟨hfaulted, hrefused, hevents, hrefusals⟩ := he.growsTo
    exact ⟨hfaulted, hrefused, hevents, hrefusals⟩

end Sys2Proof.Machine

/-! ### The state: reset, who writes `N` and which cells, and what `STATUS` says

The facts about the register `N` (R21), the buffer (R23, R52) and `STATUS` (R27) are case analyses on `Effect`. That nothing depends
on `STATUS` compares the same request run from two states, so it follows the operations instead. -/

namespace Sys2Proof.Machine

/-- Settles O7: each clause is a field of the reset state (R28). -/
theorem resetValues : Obligations.ResetValues :=
  ⟨rfl, Memory.read_nil, rfl, rfl, rfl, rfl⟩

/-- Settles O8: at reset `N` is unset, the buffer is empty, and nothing was refused or sent. -/
theorem resetMeetsInvariant : Obligations.ResetMeetsInvariant := by
  have hwf : State.reset.buf.wf := ⟨.nil, fun _ hc => absurd hc List.not_mem_nil⟩
  have hrefused : State.reset.refused = true ↔ State.reset.refusals ≠ [] := by simp [State.reset]
  exact ⟨.inl rfl, hwf, .inl rfl, hrefused, rfl⟩

/-! ### `N` and the buffer -/

/-- Every effect but INIT's leaves `N` (R21). -/
theorem Effect.n_eq {i : Instr} {s t : State} (he : Effect i s t) (hinit : ∀ size, i ≠ .init size) : t.n = s.n := by
  cases he with
  | refused | faulted | stored | shown => rfl
  | initialised size hi => exact absurd hi (hinit size)
  | commanded k => exact emit_n (encodeCommand k) .tCmd s
  | wired bytes l => exact emit_n bytes l s

/-- Settles O12: `N` changes in INIT's effect only. -/
theorem onlyInitWritesSize : Obligations.OnlyInitWritesSize :=
  fun _ _ _ hinit h => (exec_effect h).n_eq hinit

theorem sendAll_buf (codes : List Byte) (s : State) : (sendAll codes s).2.buf = s.buf :=
  sendAll_keeps (P := fun t => t.buf = s.buf) (fun _ _ h => (emit_buf _ _ _).trans h) codes rfl

/-- Every effect leaves the buffer, or it fills the cells in use for the `N` that is set (R23). -/
theorem Effect.buf_eq_or_fills {i : Instr} {s t : State} (he : Effect i s t) :
    t.buf = s.buf ∨ ∃ (x : BitVec 5) (fill : Memory → Memory), s.n = some x ∧ Fills x.toNat fill ∧ t.buf = fill s.buf := by
  cases he with
  | refused | faulted => exact .inl rfl
  | stored x fill hx _ hf => exact .inr ⟨x, fill, hx, hf, rfl⟩
  | shown x fill cells hx _ hf hc =>
    have hlen : (shiftImage cells).length = x.toNat + 2 := (shiftImage_length cells).trans (Memory.load_length hc)
    have hstore : Fills x.toNat fun m => m.store 0 (shiftImage cells) := Fills.store 0 _ (by omega)
    exact .inr ⟨x, _, hx, Fills.comp hstore hf, rfl⟩
  | initialised size => exact .inl (sendAll_buf initCodes s)
  | commanded k => exact .inl (emit_buf (encodeCommand k) .tCmd s)
  | wired bytes l => exact .inl (emit_buf bytes l s)

/-- Settles O13: what fills the buffer needs `N` and touches no cell past the trailer. -/
theorem cellsPastTrailerUntouched : Obligations.CellsPastTrailerUntouched := by
  intro i s t h
  rcases (exec_effect h).buf_eq_or_fills with hbuf | ⟨x, fill, hx, hfill, hbuf⟩
  · exact ⟨fun _ => hbuf, fun _ _ _ _ => by rw [hbuf]⟩
  · obtain ⟨-, hpast, -⟩ := hfill s.buf
    refine ⟨fun hnone => by simp [hx] at hnone, fun n hn a ha => ?_⟩
    obtain rfl : x = n := Option.some.inj (hx.symm.trans hn)
    rw [hbuf, hpast a ha]

/-! ### What the transmits of a request fold to -/

@[simp] theorem statusesOf_transaction_append (bytes : List Byte) (l : Timeout) (x : BusStatus) (evs : List BusEvent) :
    statusesOf (transaction bytes l x ++ evs) = x :: statusesOf evs := rfl

@[simp] theorem bothOk_eq_ok (x y : BusStatus) : bothOk x y = .ok ↔ x = .ok ∧ y = .ok := by
  cases x <;> cases y <;> decide

/-- A sequence of commands records one transmit for each, and its status is OK exactly when all theirs are (R27, R210). -/
theorem sendAll_folds (codes : List Byte) (s : State) :
    ∃ evs, (sendAll codes s).2.events = s.events ++ evs ∧ (statusesOf evs).length = codes.length ∧
      ((sendAll codes s).1 = .ok ↔ ∀ x ∈ statusesOf evs, x = .ok) := by
  induction codes generalizing s with
  | nil => exact ⟨[], by simp [sendAll, statusesOf]⟩
  | cons k rest ih =>
    obtain ⟨evs, hevents, hlen, hok⟩ := ih (sendCmd k s)
    refine ⟨transaction (encodeCommand k) .tCmd s.nextStatus ++ evs, ?_, by simp [hlen], by simp [sendAll, hok]⟩
    rw [sendAll, hevents, sendCmd, emit_events, List.append_assoc]

/-- `t` has the record of `s` and maybe more, and its `STATUS` folds the transmits it has more, if any (R27). -/
def State.FoldsTo (s t : State) : Prop :=
  ∃ evs, t.events = s.events ++ evs ∧
    (statusesOf evs = [] → t.status = s.status) ∧
    (statusesOf evs ≠ [] → (t.status = .ok ↔ ∀ x ∈ statusesOf evs, x = .ok))

theorem State.FoldsTo.of_no_event {s t : State} (hevents : t.events = s.events) (hstatus : t.status = s.status) : s.FoldsTo t :=
  ⟨[], by simpa using hevents, fun _ => hstatus, fun h => absurd rfl h⟩

theorem State.FoldsTo.of_transaction {s t : State} {bytes : List Byte} {l : Timeout} {x : BusStatus}
    (hevents : t.events = s.events ++ transaction bytes l x) (hstatus : t.status = x) : s.FoldsTo t :=
  ⟨_, hevents, by simp [transaction, statusesOf], by simp [transaction, statusesOf, hstatus]⟩

theorem State.FoldsTo.of_sendAll {s t : State} {codes : List Byte} (hcodes : codes ≠ [])
    (hevents : t.events = (sendAll codes s).2.events) (hstatus : t.status = (sendAll codes s).1) : s.FoldsTo t := by
  obtain ⟨evs, hsent, hlen, hok⟩ := sendAll_folds codes s
  refine ⟨evs, hevents.trans hsent, fun hnone => ?_, fun _ => hstatus ▸ hok⟩
  exact absurd (List.length_eq_zero_iff.1 (by simpa [hnone] using hlen.symm)) hcodes

/-- Every effect of a request folds its transmits into `STATUS` (R27). -/
theorem Effect.foldsTo {i : Instr} {s t : State} (he : Effect i s t) (hi : i.isRequest = true) : s.FoldsTo t := by
  cases he with
  | refused | faulted | stored => exact .of_no_event rfl rfl
  | shown => exact .of_transaction rfl rfl
  | initialised size => exact .of_sendAll (codes := initCodes) (List.cons_ne_nil _ _) rfl rfl
  | commanded k => exact .of_transaction (emit_events _ _ _) rfl
  | wired bytes l hwire => simp [hi] at hwire

/-! ### Nothing depends on `STATUS` -/

/-- Where `r` answers a next state, `r'` answers one that differs in `STATUS` at most. -/
def Result.AgreesButStatus (r r' : Result) : Prop :=
  ∀ t, r = .next t → ∃ y, r' = .next (t.setStatus y)

theorem Result.AgreesButStatus.next (t : State) (y : BusStatus) : Result.AgreesButStatus (.next t) (.next (t.setStatus y)) :=
  fun _ h => ⟨y, by rw [Host.Outcome.next.inj h]⟩

theorem setStatus_setBuf (s : State) (x : BusStatus) (m : Memory) : (s.setStatus x).setBuf m = (s.setBuf m).setStatus x := rfl

theorem emit_setStatus (bytes : List Byte) (l : Timeout) (s : State) (x : BusStatus) :
    emit bytes l (s.setStatus x) = (emit bytes l s).setStatus x := by
  simp only [emit_eq]; rfl

theorem sendCmd_setStatus (k : Byte) (s : State) (x : BusStatus) : sendCmd k (s.setStatus x) = (sendCmd k s).setStatus x :=
  emit_setStatus _ _ _ _

theorem sendAll_setStatus (codes : List Byte) (s : State) (x : BusStatus) :
    sendAll codes (s.setStatus x) = ((sendAll codes s).1, (sendAll codes s).2.setStatus x) := by
  induction codes generalizing s with
  | nil => rfl
  | cons k rest ih => simp only [sendAll, sendCmd_setStatus, ih]; rfl

theorem showBuffer_agrees (n : Nat) (m : Memory) (s : State) (x : BusStatus) :
    Result.AgreesButStatus (showBuffer n m s) (showBuffer n m (s.setStatus x)) := by
  unfold showBuffer
  split
  · exact .next s.markFaulted x
  · rw [setStatus_setBuf, emit_setStatus]
    exact .next _ _

/-- A request that is `withSize` over a body does not read `STATUS` where its body does not. -/
theorem exec_agrees_of_body {i : Instr} {body : State → Nat → Result} (hexec : ∀ s, exec i s = withSize s (body s)) (s : State)
    (x : BusStatus) (hbody : ∀ n, Result.AgreesButStatus (body s n) (body (s.setStatus x) n)) :
    Result.AgreesButStatus (exec i s) (exec i (s.setStatus x)) := by
  rw [hexec, hexec]
  intro t h
  rcases withSize_next h with ⟨hnone, rfl⟩ | ⟨n, hn, hle, h⟩
  · exact ⟨x, withSize_unset (s := s.setStatus x) hnone _⟩
  · obtain ⟨y, hy⟩ := hbody _ t h
    exact ⟨y, by simpa [withSize, hn, maxSize, hle] using hy⟩

/-- No meaning reads `STATUS` (R27). -/
theorem exec_agrees (i : Instr) (s : State) (x : BusStatus) : Result.AgreesButStatus (exec i s) (exec i (s.setStatus x)) := by
  have hrender : ∀ n (fill : Memory → Memory), Result.AgreesButStatus (render n fill s) (render n fill (s.setStatus x)) :=
    fun n fill => showBuffer_agrees n (fill (prepare n s.buf)) s x
  have hstore : ∀ m : Memory, Result.AgreesButStatus (.next (s.setBuf m)) (.next ((s.setStatus x).setBuf m)) :=
    fun m => .next (s.setBuf m) x
  have hsend : ∀ k, Result.AgreesButStatus (.next ((sendCmd k s).setStatus s.nextStatus))
      (.next ((sendCmd k (s.setStatus x)).setStatus (s.setStatus x).nextStatus)) :=
    fun k => by rw [sendCmd_setStatus]; exact .next _ _
  cases i with
  | init size => rw [exec_init, exec_init, sendAll_setStatus]; exact .next _ _
  | clear => exact exec_agrees_of_body exec_clear s x fun n => hrender n id
  | prepare => exact exec_agrees_of_body exec_prepare s x fun _ => hstore _
  | setDigit seg digit dot => exact exec_agrees_of_body (exec_setDigit seg digit dot) s x fun _ => hstore _
  | setChar seg sym dot => exact exec_agrees_of_body (exec_setChar seg sym dot) s x fun _ => hstore _
  | setRaw seg raw => exact exec_agrees_of_body (exec_setRaw seg raw) s x fun _ => hstore _
  | showFrame => exact exec_agrees_of_body exec_showFrame s x fun n => showBuffer_agrees n s.buf s x
  | renderDec value decPoint suppress battery =>
    exact exec_agrees_of_body (exec_renderDec value decPoint suppress battery) s x fun n => hrender n _
  | renderHex value suppress battery => exact exec_agrees_of_body (exec_renderHex value suppress battery) s x fun n => hrender n _
  | renderStr text battery => exact exec_agrees_of_body (exec_renderStr text battery) s x fun n => hrender n _
  | renderRaw bytes count =>
    refine exec_agrees_of_body (exec_renderRaw bytes count) s x fun n => ?_
    split
    · exact hrender n _
    · exact .next (s.markRefused _) x
  | renderClock hours minutes separator =>
    exact exec_agrees_of_body (exec_renderClock hours minutes separator) s x fun n => hrender n _
  | renderDate day month => exact exec_agrees_of_body (exec_renderDate day month) s x fun n => hrender n _
  | powerOn => exact hsend _
  | powerOff => exact hsend _
  | reserved => exact .next (s.markRefused _) x
  | wireCmd k => rw [exec_wireCmd, exec_wireCmd, sendCmd_setStatus]; exact .next _ x
  | wireWrite data pad => rw [exec_wireWrite, exec_wireWrite, emit_setStatus]; exact .next _ x

/-- Settles O15: every effect of a request folds its transmits, and no meaning reads `STATUS`. -/
theorem statusFoldsTransmits : Obligations.StatusFoldsTransmits :=
  ⟨rfl, fun _ _ _ hi h => (exec_effect h).foldsTo hi, fun i s t x h => exec_agrees i s x t h⟩

end Sys2Proof.Machine

/-! ### One request

A step is the next request run by itself (R57, R81). The setters assign at most one position, to a value that does not depend on
the buffer, so each of them is idempotent (R57). -/

namespace Sys2Proof.Machine

theorem step_of_request {s : State} {r : Request} {rest : List Request} (h : s.requests = r :: rest) :
    step s = exec (decodeRequest r) { s with requests := rest } := by
  simp only [step, h]

theorem step_of_no_request {s : State} (h : s.requests = []) : step s = .next s := by
  simp only [step, h]

/-- Settles O6: the request decoder accepts every request (R72), so the instruction it answers is the one a step runs. -/
theorem stepRunsNextRequest : Obligations.StepRunsNextRequest := by
  refine ⟨fun s r rest i hr hi => ?_, fun s hs => step_of_no_request hs⟩
  obtain rfl : decodeRequest r = i := Except.ok.inj hi
  exact step_of_request hr

/-! ### Setters -/

/-- Under one guard, writing a byte twice is writing it once. -/
theorem Memory.guarded_write_write (c : Prop) [Decidable c] (m : Memory) (a : Nat) (v : Byte) :
    (if c then (if c then m.write a v else m).write a v else if c then m.write a v else m) = if c then m.write a v else m := by
  by_cases hc : c
  · simp only [if_pos hc, Memory.write_write]
  · simp only [if_neg hc]

theorem setDigitCell_setDigitCell (n seg digit : Nat) (dot : Bool) (m : Memory) :
    setDigitCell n seg digit dot (setDigitCell n seg digit dot m) = setDigitCell n seg digit dot m :=
  Memory.guarded_write_write _ m _ _

theorem setCharCell_setCharCell (n seg sym : Nat) (dot : Bool) (m : Memory) :
    setCharCell n seg sym dot (setCharCell n seg sym dot m) = setCharCell n seg sym dot m :=
  Memory.guarded_write_write _ m _ _

theorem setRawCell_setRawCell (n seg : Nat) (raw : Byte) (m : Memory) :
    setRawCell n seg raw (setRawCell n seg raw m) = setRawCell n seg raw m :=
  Memory.guarded_write_write _ m _ _

/-- A request whose body only replaces the buffer, and is idempotent on it, completes and is idempotent once `N` is set. -/
theorem exec_idempotent_of_body {i : Instr} {body : Nat → Memory → Memory}
    (hexec : ∀ s, exec i s = withSize s fun n => .next (s.setBuf (body n s.buf))) {s : State} {n : Nat} (hs : s.hasSize n)
    (hbody : ∀ m, body n (body n m) = body n m) : ∃ t, exec i s = .next t ∧ exec i t = .next t := by
  refine ⟨s.setBuf (body n s.buf), ?_, ?_⟩
  · rw [hexec, withSize_set hs]
  · rw [hexec, withSize_set ((State.hasSize_setBuf s _ n).2 hs), State.setBuf_buf, hbody]
    rfl

/-- Settles O31: each setter only replaces the buffer, by a body that is idempotent. -/
theorem settersAreIdempotent : Obligations.SettersAreIdempotent := by
  rintro i s n hs (⟨seg, digit, dot, rfl⟩ | ⟨seg, sym, dot, rfl⟩ | ⟨seg, raw, rfl⟩)
  · exact exec_idempotent_of_body (exec_setDigit seg digit dot) hs (setDigitCell_setDigitCell n seg.toNat digit.toNat dot)
  · exact exec_idempotent_of_body (exec_setChar seg sym dot) hs (setCharCell_setCharCell n seg.toNat sym.toNat dot)
  · exact exec_idempotent_of_body (exec_setRaw seg raw) hs (setRawCell_setRawCell n seg.toNat raw)

end Sys2Proof.Machine

/-! ### Encoding

The two decoders undo the encoder (R70 to R77). A command frame is read back field by field. The bytes of a write frame after its
header are the patterns moved down by one bit (R153): each byte starts with the last bit of the pattern before it, and that bit is
all a reader of the bytes before it needs to know of the rest. -/

namespace Sys2Proof

/-! ### Requests -/

/-- The request decoder looks at `OP` first, so a request whose `OP` is known decodes as R71's row for it says. -/
theorem decode_request_of_op {r : Request} {op : BitVec 4} (h : r.op = op) :
    decode (.request r) = .ok (decodeRequest { r with op := op }) := by
  subst h; rfl

/-- Settles O1: with `OP` known the decoder's match is decided, and its row reads the ports R71 lists. -/
theorem opcodeMapSelectsOperation : Obligations.OpcodeMapSelectsOperation := by
  intro r
  and_intros <;> exact fun h => decode_request_of_op h

/-- Settles O2: the request decoder is total (R72) and answers no wire frame. -/
theorem everyRequestDecodes : Obligations.EveryRequestDecodes :=
  fun r => ⟨decodeRequest r, rfl, Machine.decodeRequest_isRequest r⟩

/-- Settles O4: each word's bytes are computed and decoded. -/
theorem tableWordsDecode : Obligations.TableWordsDecode := by
  unfold Obligations.TableWordsDecode
  decide

/-- Settles O19: `OP = 0xF` selects the reserved opcode, whose meaning is `refuse` with no check before it. -/
theorem reservedOpcodeRefused : Obligations.ReservedOpcodeRefused :=
  fun _ s hop => ⟨decode_request_of_op hop, Machine.exec_reserved s⟩

/-- A boolean comes back from its port (R72). -/
theorem bitTrue_boolBit (b : Bool) : bitTrue (boolBit b) = b := by
  cases b <;> rfl

/-- Decoding undoes the encoder on what a request carries. -/
theorem decode_encode_of_isRequest {i : Instr} (hi : i.isRequest = true) : decode (encode i) = .ok i := by
  cases i with
  | setDigit seg digit dot => exact congrArg (fun b => Except.ok (Instr.setDigit seg digit b)) (bitTrue_boolBit dot)
  | setChar seg sym dot => exact congrArg (fun b => Except.ok (Instr.setChar seg sym b)) (bitTrue_boolBit dot)
  | renderDec value decPoint suppress battery =>
    exact congrArg (fun b => Except.ok (Instr.renderDec value decPoint b battery)) (bitTrue_boolBit suppress)
  | renderHex value suppress battery =>
    exact congrArg (fun b => Except.ok (Instr.renderHex value b battery)) (bitTrue_boolBit suppress)
  | renderClock hours minutes separator =>
    exact congrArg (fun b => Except.ok (Instr.renderClock hours minutes b)) (bitTrue_boolBit separator)
  | wireCmd | wireWrite => cases hi
  | _ => rfl

/-! ### Command frames -/

/-- A field of a field is the field at the sum of their offsets. -/
theorem extractLsb'_extractLsb' {w start len : Nat} (start' len' : Nat) (x : BitVec w) (h : start' + len' ≤ len) :
    (x.extractLsb' start len).extractLsb' start' len' = x.extractLsb' (start + start') len' := by
  refine BitVec.eq_of_getLsbD_eq fun i hi => ?_
  have hin : start' + i < len := by omega
  simp only [BitVec.getLsbD_extractLsb', hi, hin, decide_true, Bool.true_and, Nat.add_assoc]

/-- Decoding undoes the encoder on a command frame: both cut the 16 bits of R73's table, at the bytes and at the fields. -/
theorem decodeFrame_commandFrame (k : Byte) : decodeFrame (commandFrame k) = .ok (.wireCmd k) := by
  have hmark : ((commandWord k).extractLsb' 8 8).extractLsb' 5 3 = 0b100#3 := by
    rw [extractLsb'_extractLsb' 5 3 _ (by decide)]
    exact (BitVec.extractLsb'_append_eq_of_le (by decide)).trans BitVec.extractLsb'_append_eq_left
  have hpad : ((commandWord k).extractLsb' 0 8).extractLsb' 0 5 = 0#5 := by
    rw [extractLsb'_extractLsb' 0 5 _ (by decide)]
    exact BitVec.extractLsb'_append_eq_right
  have hcode : ((commandWord k).extractLsb' 8 8).extractLsb' 0 5 ++ ((commandWord k).extractLsb' 0 8).extractLsb' 5 3 = k := by
    rw [extractLsb'_extractLsb' 0 5 _ (by decide), extractLsb'_extractLsb' 5 3 _ (by decide)]
    calc (commandWord k).extractLsb' 8 5 ++ (commandWord k).extractLsb' 5 3
        = (commandWord k).extractLsb' 5 8 := BitVec.extractLsb'_append_extractLsb'_eq_extractLsb' rfl
      _ = (0b100#3 ++ k).extractLsb' 0 8 := BitVec.extractLsb'_append_eq_of_le (by decide)
      _ = k := BitVec.extractLsb'_append_eq_right
  simp only [commandFrame, decodeFrame, if_pos hmark, if_pos hpad, hcode]

/-! ### Write frames -/

/-- The bytes after the header begin with the carried bit. -/
theorem frameBody_eq_cons (c : BitVec 1) (data : List Byte) (pad : BitVec 7) :
    ∃ (t : BitVec 7) (rest : List Byte), frameBody c data pad = (c ++ t) :: rest := by
  cases data with
  | nil => exact ⟨pad, [], rfl⟩
  | cons p data => exact ⟨_, _, rfl⟩

@[simp] theorem frameBody_length (c : BitVec 1) (data : List Byte) (pad : BitVec 7) :
    (frameBody c data pad).length = data.length + 1 := by
  induction data generalizing c with
  | nil => rfl
  | cons p data ih => simp [frameBody, ih]

/-- A pattern is read from the byte that holds its top 7 bits and from the carry of the bytes after it. -/
theorem unshiftData_cons_frameBody (b : Byte) (c : BitVec 1) (data : List Byte) (pad : BitVec 7) :
    unshiftData (b :: frameBody c data pad) = (b.extractLsb' 0 7 ++ c) :: unshiftData (frameBody c data pad) := by
  obtain ⟨t, rest, hbody⟩ := frameBody_eq_cons c data pad
  rw [hbody, unshiftData, BitVec.extractLsb'_append_eq_left]

/-- The patterns come back from a write frame (R74, R153). -/
theorem unshiftData_frameBody (c : BitVec 1) (data : List Byte) (pad : BitVec 7) :
    unshiftData (frameBody c data pad) = data := by
  induction data generalizing c with
  | nil => rfl
  | cons p data ih =>
    rw [frameBody, unshiftData_cons_frameBody, ih, BitVec.extractLsb'_append_eq_right, BitVec.extractLsb'_append_extractLsb']

/-- The last byte of a write frame carries its padding, whatever stands before the bytes after the header. -/
theorem getLastD_frameBody (b : Byte) (c : BitVec 1) (data : List Byte) (pad : BitVec 7) :
    ((frameBody c data pad).getLastD b).extractLsb' 0 7 = pad := by
  induction data generalizing b c with
  | nil => exact BitVec.extractLsb'_append_eq_right
  | cons p data ih => rw [frameBody, List.getLastD_cons, ih]

/-- The padding comes back from a write frame (R74, R153). -/
theorem framePad_frameBody (c : BitVec 1) (data : List Byte) (pad : BitVec 7) : framePad (frameBody c data pad) = pad :=
  getLastD_frameBody 0#8 c data pad

/-- Decoding undoes the encoder on a write frame of the patterns of some `N` in `[2,16]` (R74). -/
theorem decodeFrame_writeFrame {data : List Byte} (pad : BitVec 7) (hlo : minSize ≤ data.length) (hhi : data.length ≤ maxSize) :
    decodeFrame (writeFrame data pad) = .ok (.wireWrite data pad) := by
  have hcmd : ¬ (0xA0#8).extractLsb' 5 3 = 0b100#3 := by decide
  have hmark : (0xA0#8).extractLsb' 5 3 = 0b101#3 := by decide
  have haddr : (0xA0#8).extractLsb' 0 5 = 0#5 ∧ ((frameBody 0#1 data pad).headD 0#8).extractLsb' 7 1 = 0#1 := by
    obtain ⟨t, rest, hbody⟩ := frameBody_eq_cons 0#1 data pad
    exact ⟨by decide, by rw [hbody, List.headD_cons, BitVec.extractLsb'_append_eq_left]⟩
  have hlen : minSize + 1 ≤ (frameBody 0#1 data pad).length ∧ (frameBody 0#1 data pad).length ≤ maxSize + 1 := by
    rw [frameBody_length]; omega
  simp only [writeFrame, decodeFrame, if_neg hcmd, if_pos hmark, if_pos haddr, if_pos hlen, unshiftData_frameBody,
    framePad_frameBody]

/-- Settles O3: by cases on what the encoder writes: a request, a command frame or a write frame. -/
theorem decodeEncodeRoundTrip : Obligations.DecodeEncodeRoundTrip := by
  intro i hwf
  cases i with
  | wireCmd k => exact decodeFrame_commandFrame k
  | wireWrite data pad =>
    obtain ⟨hlo, hhi⟩ : minSize ≤ data.length ∧ data.length ≤ maxSize := by simpa [Instr.wellFormed] using hwf
    exact decodeFrame_writeFrame pad hlo hhi
  | _ => exact decode_encode_of_isRequest rfl

end Sys2Proof

/-! ### What a request can do to the run and to the bus

Whether a request answers a next state depends on `N` alone (R241, R262). Every effect of a request that records events records
whole transactions of legal frames (R77, R78). -/

namespace Sys2Proof.Machine

/-- Every instruction answers a next state where `N` is unset or in `[2,16]` (R241). -/
theorem exec_answers (i : Instr) {s : State} (hs : s.sizeOk) : ∃ t, exec i s = .next t := by
  by_cases hneeds : i.needsSize = true
  · obtain ⟨body, hexec, hbody⟩ := exec_withSize i hneeds
    rw [hexec]
    rcases hs with hnone | ⟨n, hn⟩
    · exact ⟨_, withSize_unset hnone _⟩
    · rw [withSize_set hn]
      exact hbody s n
  · cases i with
    | init | powerOn | powerOff | reserved | wireCmd | wireWrite => exact ⟨_, rfl⟩
    | _ => exact absurd rfl hneeds

/-- Settles O10: a step takes nothing, or it runs an instruction with the same `N`. -/
theorem stepNeverStops : Obligations.StepNeverStops := by
  intro s hs
  cases hr : s.requests with
  | nil => exact ⟨s, step_of_no_request hr⟩
  | cons r rest =>
    rw [step_of_request hr]
    exact exec_answers (decodeRequest r) (s := { s with requests := rest }) hs

/-! ### What a request puts on the bus -/

/-- `t` has the events of `s` and, after them, whole transactions of legal frames. -/
def State.AddsLegalEvents (s t : State) : Prop :=
  ∃ evs, t.events = s.events ++ evs ∧ legalEvents evs = true

theorem State.AddsLegalEvents.of_events_eq {s t : State} (h : t.events = s.events) : s.AddsLegalEvents t :=
  ⟨[], by rw [h, List.append_nil], rfl⟩

/-- One more transaction of a legal frame (R77, R78). -/
theorem State.AddsLegalEvents.transaction {s t u : State} (h : s.AddsLegalEvents t) {bytes : List Byte} {l : Timeout} {x : BusStatus}
    (hf : legalFrame bytes l = true) (hu : u.events = t.events ++ transaction bytes l x) : s.AddsLegalEvents u := by
  obtain ⟨evs, hevents, hlegal⟩ := h
  exact ⟨evs ++ Machine.transaction bytes l x, by rw [hu, hevents, List.append_assoc],
    legalEvents_append_transaction hlegal hf x⟩

theorem State.AddsLegalEvents.sendCmd {s t : State} (h : s.AddsLegalEvents t) (k : Byte) : s.AddsLegalEvents (sendCmd k t) :=
  h.transaction (legalFrame_encodeCommand k) (emit_events _ _ _)

/-- Every effect of a request adds whole transactions of legal frames (R77, R78). -/
theorem Effect.addsLegalEvents {i : Instr} {s t : State} (he : Effect i s t) (hi : i.isRequest = true) (hs : s.sizeOk) :
    s.AddsLegalEvents t := by
  have hself : s.AddsLegalEvents s := .of_events_eq rfl
  cases he with
  | refused | faulted | stored => exact .of_events_eq rfl
  | shown x fill cells hx _ _ hc =>
    obtain ⟨hlo, hhi⟩ := hs.bounds hx
    exact hself.transaction (legalFrame_shiftImage (Memory.load_length hc) hlo hhi) rfl
  | initialised size => exact sendAll_keeps (fun k _ h => h.sendCmd k) initCodes hself
  | commanded k => exact hself.sendCmd k
  | wired bytes l hwire => simp [hi] at hwire

/-- Settles O17: every effect of a request adds whole legal transactions. -/
theorem requestsEmitWholeLegalFrames : Obligations.RequestsEmitWholeLegalFrames :=
  fun _ _ _ hi hs h => (exec_effect h).addsLegalEvents hi hs

/-! ### CLEAR -/

/-- Where every cell in use is written, SHOW's body gives the buffer its new cells, whatever the state's own buffer held. -/
theorem showBuffer_setBuf {m : Memory} {n : Nat} {p : Nat → Byte} (h : ∀ k, k ≤ n + 1 → m.read k = some (p k)) (s : State)
    (m' : Memory) : showBuffer n m (s.setBuf m') = showBuffer n m s := by
  rw [showBuffer_written m _ p h, showBuffer_written m s p h]
  rfl

/-- Settles O25: PREPARE leaves every cell in use 0, and SHOW's body on those cells is what CLEAR runs. -/
theorem clearIsPrepareThenShow : Obligations.ClearIsPrepareThenShow := by
  intro s n hs
  have hzero : ∀ k, k ≤ n + 1 → (prepare n s.buf).read k = some 0#8 := fun k hk => by
    rw [read_prepare _ hs.2.2, if_pos hk]
  obtain ⟨u, hu⟩ := showBuffer_answers n (prepare n s.buf) s
  refine ⟨s.setBuf (prepare n s.buf), u, ?_, ?_, ?_⟩
  · rw [exec_prepare, withSize_set hs]
  · rw [exec_showFrame, withSize_set ((State.hasSize_setBuf s _ n).2 hs), State.setBuf_buf, showBuffer_setBuf hzero, hu]
  · rw [exec_clear, withSize_set hs]
    exact hu

/-! ### The bitstream of a write frame

The bytes of a write frame are one stream: the carried bit, the patterns, the padding (R74, R153). SHOW's frame is such a frame:
its padding is what Shift leaves of the trailer, the top 7 bits (R152). -/

theorem bitStream_append (xs ys : List Byte) : bitStream (xs ++ ys) = bitStream xs ++ bitStream ys := by
  induction xs with
  | nil => rfl
  | cons x xs ih => simp only [List.cons_append, bitStream, ih, List.append_assoc]

/-- The 7 padding bits in the order sent. -/
def padBits (pad : BitVec 7) : List Bool := (bitStream [pad ++ 0#1]).take 7

/-- A byte that starts with a carried bit sends that bit and then its own 7. -/
theorem bitStream_carry (c : BitVec 1) (t : BitVec 7) : bitStream [c ++ t] = c.getLsbD 0 :: padBits t := by
  simp only [padBits, bitStream, getLsbD_join1_7, getLsbD_join7_1]
  rfl

/-- A byte that ends with a carried bit sends its own 7 and then that bit. -/
theorem bitStream_carried (t : BitVec 7) (c : BitVec 1) : bitStream [t ++ c] = padBits t ++ [c.getLsbD 0] := by
  simp only [padBits, bitStream, getLsbD_join7_1]
  rfl

/-- A byte sends its top 7 bits and then the bit the next byte of a frame carries. -/
theorem bitStream_byte (b : Byte) : bitStream [b] = padBits (b.extractLsb' 1 7) ++ [(b.extractLsb' 0 1).getLsbD 0] := by
  rw [← bitStream_carried, BitVec.extractLsb'_append_extractLsb']

/-- The bytes of a write frame after its header as one stream (R74). -/
theorem bitStream_frameBody (c : BitVec 1) (data : List Byte) (pad : BitVec 7) :
    bitStream (frameBody c data pad) = c.getLsbD 0 :: (bitStream data ++ padBits pad) := by
  induction data generalizing c with
  | nil => exact bitStream_carry c pad
  | cons p data ih =>
    rw [frameBody, ← List.singleton_append, bitStream_append, bitStream_carry, ih, ← List.singleton_append (x := p),
      bitStream_append, bitStream_byte]
    simp only [List.cons_append, List.append_assoc, List.nil_append]

/-- The stream of a write frame: the marker, six address zeros, the data bits, the padding (R74). -/
theorem bitStream_writeFrame (data : List Byte) (pad : BitVec 7) :
    bitStream (writeFrame data pad) =
      [true, false, true] ++ List.replicate 6 false ++ bitStream data ++ padBits pad := by
  have hheader : bitStream [0xA0#8] = [true, false, true] ++ List.replicate 5 false := by decide
  rw [writeFrame, ← List.singleton_append, bitStream_append, bitStream_frameBody, hheader]
  rfl

theorem writeFrame_length (data : List Byte) (pad : BitVec 7) : (writeFrame data pad).length = data.length + 2 := by
  simp [writeFrame]

/-- Settles O48: a wire frame is one transaction of its bytes, and a write frame's bytes are their stream. -/
theorem wireFramesAreTransactions : Obligations.WireFramesAreTransactions := by
  refine ⟨fun k s => ?_, fun data pad s _ => ⟨writeFrame data pad, ?_, writeFrame_length data pad, bitStream_writeFrame data pad⟩⟩
  · rw [exec_wireCmd, sendCmd_eq, encodeCommand]
  · rw [exec_wireWrite, emit_eq]

/-! ### The bitstream of SHOW -/

/-- Shift moves the cells down by one bit: the cells after `prev` become the bytes of a write frame after its header (R150, R153). -/
theorem shiftTail_append_trailer (prev trailer : Byte) (data : List Byte) :
    shiftTail prev (data ++ [trailer]) = frameBody (prev.extractLsb' 0 1) data (trailer.extractLsb' 1 7) := by
  induction data generalizing prev with
  | nil => simp only [List.nil_append, shiftTail, frameBody, shiftWindow_eq]
  | cons p data ih => simp only [List.cons_append, shiftTail, frameBody, shiftWindow_eq, ih]

/-- Clearing the top bit of a byte that carries a bit carries 0 instead. -/
theorem carry_and_0x7F (c : BitVec 1) (t : BitVec 7) : (c ++ t) &&& 0x7F#8 = 0#1 ++ t := by
  refine byte_eq fun i hi => ?_
  rw [BitVec.getLsbD_and, getLsbD_join1_7, getLsbD_join1_7]
  interval_cases i <;> simp

/-- The 6th address bit is the carry into the bytes after the header. -/
theorem clearAddressBit_frameBody (c : BitVec 1) (data : List Byte) (pad : BitVec 7) :
    clearAddressBit (frameBody c data pad) = frameBody 0#1 data pad := by
  cases data with
  | nil => simp only [frameBody, clearAddressBit, carry_and_0x7F]
  | cons p data => simp only [frameBody, clearAddressBit, carry_and_0x7F]

/-- Shift makes a write frame of the cells in use (R150, R152, R153). -/
theorem shiftImage_eq_writeFrame (header trailer : Byte) (data : List Byte) :
    shiftImage (header :: (data ++ [trailer])) = writeFrame data (trailer.extractLsb' 1 7) := by
  rw [shiftImage, shiftTail_append_trailer, clearAddressBit_frameBody, writeFrame]

/-- The frame of R153 as a write frame: positions 1 to `n` are the data, and the trailer leaves the padding (R152). -/
theorem frameOf_wireByte_eq_writeFrame (n : Nat) (p : Nat → Byte) :
    frameOf n (wireByte p) = writeFrame ((List.range n).map fun k => p (k + 1)) ((p (n + 1)).extractLsb' 1 7) := by
  have hcells : (List.range (n + 2)).map p = p 0 :: ((List.range n).map (fun k => p (k + 1)) ++ [p (n + 1)]) := by
    rw [List.range_succ_eq_map, List.range_succ]
    simp
  rw [← shiftImage_eq_frameOf, hcells, shiftImage_eq_writeFrame]

/-- Settles O35: the frame SHOW sends is the write frame of positions 1 to `n`, padded by the top of the trailer. -/
theorem showSendsWriteFrameStream : Obligations.ShowSendsWriteFrameStream := by
  intro s n p hs hp
  have hpad : padBits ((p (n + 1)).extractLsb' 1 7) = (bitStream [p (n + 1)]).take 7 := by
    rw [bitStream_byte]; rfl
  have hshow := ((exec_showFrame s).trans (withSize_set hs _)).trans (showBuffer_written s.buf s p hp)
  refine ⟨_, frameOf n (wireByte p), padBits ((p (n + 1)).extractLsb' 1 7), hshow, rfl, by simp [frameOf], ?_, hpad, fun h0 => ?_⟩
  · rw [frameOf_wireByte_eq_writeFrame, bitStream_writeFrame]
  · rw [h0]; decide

end Sys2Proof.Machine

/-! ### The command encoder

The formula of R100 gives the 16 bits that R73 lays out; the fields are read from that layout. -/

namespace Sys2Proof

/-- The two bytes of R100 side by side are the 16 bits of R73's table. -/
theorem encodedBytes_append (k : Byte) : (0x80#8 ||| (k >>> 3)) ++ (k <<< 5) = commandWord k := by
  refine BitVec.eq_of_getLsbD_eq fun i hi => ?_
  simp only [commandWord, BitVec.getLsbD_append]
  interval_cases i <;> simp

/-- The marker of a command frame (R73). -/
theorem commandWord_marker (k : Byte) : (commandWord k).extractLsb' 13 3 = 0b100#3 :=
  (BitVec.extractLsb'_append_eq_of_le (by decide)).trans BitVec.extractLsb'_append_eq_left

/-- The code of a command frame (R73). -/
theorem commandWord_code (k : Byte) : (commandWord k).extractLsb' 5 8 = k :=
  (BitVec.extractLsb'_append_eq_of_le (by decide)).trans BitVec.extractLsb'_append_eq_right

/-- A field inside the five bits after the code, the don't-care bit and the padding, is 0 (R73). -/
theorem commandWord_lowField (k : Byte) {start len : Nat} (h : start + len ≤ 5) : (commandWord k).extractLsb' start len = 0#len :=
  (BitVec.extractLsb'_append_eq_of_add_le h).trans BitVec.extractLsb'_zero

/-- Settles O5: the bytes of the formula are the 16 bits of the layout, cut at its fields. -/
theorem commandFrameLayout : Obligations.CommandFrameLayout := by
  intro k
  refine ⟨0x80#8 ||| (k >>> 3), k <<< 5, rfl, rfl, BitVec.and_allOnes.symm, ?_⟩
  rw [encodedBytes_append]
  exact ⟨commandWord_marker k, commandWord_code k, commandWord_lowField k (by decide), commandWord_lowField k (by decide)⟩

end Sys2Proof

/-! ### PREPARE, the setters and the empty renders

Each setter is one guarded assignment of a position (R120 to R123): `AssignsWhen` says what that does, and each setter is one such
assignment. The guard asks for a segment below `N`, so neither the header nor the trailer is a position a setter reaches. -/

namespace Sys2Proof.Machine

/-- Settles O26: PREPARE's body zeroes cells `0..N+1` of the buffer, and nothing but the buffer is replaced. -/
theorem prepareZeroesBuffer : Obligations.PrepareZeroesBuffer := fun s =>
  ⟨fun hnone => (exec_prepare s).trans (withSize_unset hnone _),
    fun _ hs => ⟨_, (exec_prepare s).trans (withSize_set hs _), read_prepare s.buf (State.hasSize_le hs).2, rfl⟩⟩

/-! ### One guarded assignment -/

/-- In `s`, `i` completes: where `c` holds it assigns `v` to the cell `a` and leaves every other cell and field, else it leaves
everything (R120). -/
def AssignsWhen (c : Prop) [Decidable c] (a : Nat) (v : Byte) (i : Instr) (s : State) : Prop :=
  if c then
    ∃ t, exec i s = .next t ∧ (∀ b, t.buf.read b = if b = a then some v else s.buf.read b) ∧ t = { s with buf := t.buf }
  else exec i s = .next s

section
variable {c : Prop} [Decidable c] {a : Nat} {v : Byte} {i : Instr} {s : State}

/-- A guarded write of a cell of the buffer is a guarded assignment. -/
theorem AssignsWhen.of_exec (ha : c → a < capacity)
    (hexec : exec i s = .next (s.setBuf (if c then s.buf.write a v else s.buf))) : AssignsWhen c a v i s := by
  unfold AssignsWhen
  split
  next hc =>
    rw [if_pos hc] at hexec
    exact ⟨_, hexec, fun b => Memory.read_write s.buf b v (ha hc), rfl⟩
  next hc =>
    rw [if_neg hc] at hexec
    exact hexec

theorem AssignsWhen.skips (h : AssignsWhen c a v i s) (hc : ¬ c) : exec i s = .next s := by
  rwa [AssignsWhen, if_neg hc] at h

/-- The frame: a cell other than the one assigned reads as before. -/
theorem AssignsWhen.frame (h : AssignsWhen c a v i s) :
    ∃ t, exec i s = .next t ∧ ∀ b, (c → b ≠ a) → t.buf.read b = s.buf.read b := by
  by_cases hc : c
  · rw [AssignsWhen, if_pos hc] at h
    obtain ⟨t, ht, hread, -⟩ := h
    exact ⟨t, ht, fun b hb => by rw [hread, if_neg (hb hc)]⟩
  · exact ⟨s, h.skips hc, fun _ _ => rfl⟩

/-- An assignment guarded by a segment below `n` reaches neither the header nor the trailer (R123). -/
theorem AssignsWhen.misses_header_and_trailer {seg n : Nat} (h : AssignsWhen c (seg + 1) v i s) (hseg : c → seg < n) :
    ∃ t, exec i s = .next t ∧ t.buf.read 0 = s.buf.read 0 ∧ t.buf.read (n + 1) = s.buf.read (n + 1) := by
  obtain ⟨t, ht, hframe⟩ := h.frame
  exact ⟨t, ht, hframe 0 fun _ => by omega, hframe (n + 1) fun hc => by have := hseg hc; omega⟩

/-! ### The setters -/

variable {n : Nat}

/-- A position of the display is a cell of the buffer (R21, R23). -/
theorem State.hasSize.position_lt_capacity (hs : s.hasSize n) {seg : Nat} (h : seg < n) : seg + 1 < capacity := by
  have hle := (State.hasSize_le hs).2
  simp only [capacity]
  omega

theorem setDigit_assigns (hs : s.hasSize n) (seg digit : Byte) (dot : Bool) :
    AssignsWhen (seg.toNat < n ∧ digit.toNat ≤ 15) (seg.toNat + 1) (digitGlyph digit.toNat ||| dotBits dot)
      (.setDigit seg digit dot) s :=
  .of_exec (fun hc => hs.position_lt_capacity hc.1) ((exec_setDigit seg digit dot s).trans (withSize_set hs _))

theorem setChar_assigns (hs : s.hasSize n) (seg sym : Byte) (dot : Bool) :
    AssignsWhen (seg.toNat < n ∧ 40 ≤ sym.toNat ∧ sym.toNat ≤ 95) (seg.toNat + 1) (charGlyph sym.toNat ||| dotBits dot)
      (.setChar seg sym dot) s :=
  .of_exec (fun hc => hs.position_lt_capacity hc.1) ((exec_setChar seg sym dot s).trans (withSize_set hs _))

theorem setRaw_assigns (hs : s.hasSize n) (seg raw : Byte) :
    AssignsWhen (seg.toNat < n) (seg.toNat + 1) raw (.setRaw seg raw) s :=
  .of_exec hs.position_lt_capacity ((exec_setRaw seg raw s).trans (withSize_set hs _))

end

/-- Settles O27: refused before the first INIT (R262), and then one guarded assignment (R121). -/
theorem setDigitWritesPosition : Obligations.SetDigitWritesPosition := fun seg digit dot s =>
  ⟨fun hnone => (exec_setDigit seg digit dot s).trans (withSize_unset hnone _), fun _ hs => setDigit_assigns hs seg digit dot⟩

/-- Settles O28: refused before the first INIT (R262), and then one guarded assignment (R122). -/
theorem setCharWritesPosition : Obligations.SetCharWritesPosition := fun seg sym dot s =>
  ⟨fun hnone => (exec_setChar seg sym dot s).trans (withSize_unset hnone _), fun _ hs => setChar_assigns hs seg sym dot⟩

/-- Settles O29: refused before the first INIT (R262), and then one guarded assignment (R123). -/
theorem setRawWritesPosition : Obligations.SetRawWritesPosition := fun seg raw s =>
  ⟨fun hnone => (exec_setRaw seg raw s).trans (withSize_unset hnone _), fun _ hs => setRaw_assigns hs seg raw⟩

/-- Settles O30: an operand out of range fails the guard of its setter's assignment. -/
theorem outOfRangeSettersDoNothing : Obligations.OutOfRangeSettersDoNothing := fun _ _ seg x dot hs =>
  ⟨fun hout => (setDigit_assigns hs seg x dot).skips (by omega), fun hout => (setChar_assigns hs seg x dot).skips (by omega),
    fun hout => (setRaw_assigns hs seg x).skips (by omega)⟩

/-- Settles O32: the guard of each setter asks for a segment below `N`. -/
theorem settersMissHeaderAndTrailer : Obligations.SettersMissHeaderAndTrailer := by
  rintro i s n hs (⟨seg, digit, dot, rfl⟩ | ⟨seg, sym, dot, rfl⟩ | ⟨seg, raw, rfl⟩)
  · exact (setDigit_assigns hs seg digit dot).misses_header_and_trailer And.left
  · exact (setChar_assigns hs seg sym dot).misses_header_and_trailer And.left
  · exact (setRaw_assigns hs seg raw).misses_header_and_trailer id

/-! ### Renders that populate no position -/

/-- At level 0 no battery segment is lit (R175). -/
theorem batteryOverlay_zero (n : Nat) (m : Memory) : batteryOverlay n 0#8 m = m := by
  have hlevel : min (clampLevel 0#8) n = 0 := Nat.zero_min n
  rw [batteryOverlay, hlevel, orPositions]

/-- The empty text without battery fills nothing in (R185). -/
theorem exec_renderStr_nil (s : State) : exec (.renderStr [] 0#8) s = exec .clear s := by
  simp only [exec_renderStr, exec_clear, List.take_nil, textLoop, batteryOverlay_zero]
  rfl

/-- A raw count of 0 asks for no byte, so it is never refused for its data, and fills nothing in (R188). -/
theorem exec_renderRaw_zero (bytes : List Byte) (s : State) : exec (.renderRaw bytes 0) s = exec .clear s := by
  simp only [exec_renderRaw, exec_clear, Nat.zero_min, Nat.zero_le, if_true, List.take_zero, Memory.store]
  rfl

/-- Settles O45: either render leaves the prepared buffer as CLEAR does (R127, R214). -/
theorem emptyRendersEqualClear : Obligations.EmptyRendersEqualClear := fun s bytes =>
  ⟨exec_renderStr_nil s, exec_renderRaw_zero bytes s⟩

end Sys2Proof.Machine

/-! ### SHOW

The window of R150 is a carried bit over the top 7 bits of a byte, so the cells that Shift leaves are the wire form of R153, and one
run of SHOW shows both. -/

namespace Sys2Proof.Machine

/-- The 16-bit word of R150 is the two bytes side by side. -/
theorem windowByte_eq_shiftWindow (prev cur : Byte) : windowByte prev cur = shiftWindow prev cur := by
  have hword : prev.setWidth 16 <<< 8 ||| cur.setWidth 16 = prev ++ cur := by
    rw [BitVec.append_def, BitVec.shiftLeftZeroExtend_eq, BitVec.setWidth'_eq]
  rw [windowByte, shiftWindow, hword, BitVec.setWidth_eq_extractLsb' (by decide)]

/-- Shift leaves the wire form of the cells (R150, R153). -/
theorem shiftedCell_eq_wireByte (p : Nat → Byte) : shiftedCell p = wireByte p := by
  funext k
  match k with
  | 0 => rfl
  | 1 => rw [shiftedCell, windowByte_eq_shiftWindow, shiftWindow_eq, carry_and_0x7F, wireByte]
  | k + 2 => rw [shiftedCell, windowByte_eq_shiftWindow, shiftWindow_eq, wireByte]

/-- Settles O34: SHOW's body stores and sends the frame of R153, and the store reaches no cell past the trailer. -/
theorem showLeavesWireForm : Obligations.ShowLeavesWireForm := by
  intro s n p hs hp
  have hread := read_store_frameOf s.buf (State.hasSize_le hs).2 (wireByte p)
  refine ⟨_, ((exec_showFrame s).trans (withSize_set hs _)).trans (showBuffer_written s.buf s p hp), ?_, ?_, rfl⟩
  · exact fun k hk => (hread k).trans (if_pos hk)
  · exact fun k hk => (hread k).trans (if_neg (by omega))

/-- Settles O33: refused before the first INIT (R262), a fault on an unwritten cell (R260), and otherwise the wire form, which is
the shifted cells. -/
theorem showShiftsAndTransmits : Obligations.ShowShiftsAndTransmits := by
  refine fun s => ⟨fun hnone => ?_, fun n hs ⟨k, hk, hunwritten⟩ => ?_, fun n p hs hp => ?_⟩
  · exact (exec_showFrame s).trans (withSize_unset hnone _)
  · exact ((exec_showFrame s).trans (withSize_set hs _)).trans (showBuffer_unwritten s.buf s hk hunwritten)
  · rw [shiftedCell_eq_wireByte]
    exact showLeavesWireForm s n p hs hp

end Sys2Proof.Machine

/-! ### The renderers

A renderer fills a prepared buffer and shows it (R170). `Memory.Holds` says which cells a buffer holds up to the trailer; one lemma
for each operation of the fills says what it does to them, and `render_shown` turns the cells of the whole fill into the frame sent.
The digit loops of RENDER_DEC and RENDER_HEX fill positions from 1 upwards with the glyphs of one numeral. -/

namespace Sys2Proof.Machine

/-! ### The battery overlay -/

/-- A read after an OR into consecutive positions of the buffer: an unwritten cell has no value to OR into. -/
theorem read_orPositions (mask : Byte) {count a : Nat} (m : Memory) (k : Nat) (h : a + count ≤ capacity) :
    (orPositions mask count a m).read k = if a ≤ k ∧ k < a + count then (m.read k).map (· ||| mask) else m.read k := by
  induction count generalizing a m with
  | zero => rw [orPositions, if_neg (by omega)]
  | succ count ih =>
    rw [orPositions, ih _ (by omega), Memory.read_orCell m k mask (by omega)]
    by_cases hk : k = a
    · subst hk
      rw [if_neg (by omega), if_pos rfl, if_pos (by omega)]
    · rw [if_neg hk]
      exact if_congr (by omega) rfl rfl

/-- Settles O44: the overlay is one OR into the positions from 1 upwards. -/
theorem batteryOverlaySetsLowPositions : Obligations.BatteryOverlaySetsLowPositions := by
  intro n level m p hn
  have hfits : 1 + min (clampLevel level) n ≤ capacity := by simp only [capacity]; omega
  rw [batteryOverlay, read_orPositions batMask m p hfits]
  exact if_congr (by simp only [clampLevel, uint8]; omega) rfl rfl

/-! ### The cells a buffer holds -/

/-- `m` holds the cells `p` up to the trailer of `N = n`, and past it what `old` holds. -/
def Memory.Holds (m old : Memory) (n : Nat) (p : Nat → Byte) : Prop :=
  ∀ k, m.read k = if k ≤ n + 1 then some (p k) else old.read k

/-- `q` at the positions 1 to `j`, and blank elsewhere. -/
def firstPositions (j : Nat) (q : Nat → Byte) (k : Nat) : Byte := if 1 ≤ k ∧ k ≤ j then q k else 0#8

theorem firstPositions_of_gt {j k : Nat} (q : Nat → Byte) (h : j < k) : firstPositions j q k = 0#8 := if_neg (by omega)

theorem firstPositions_zero (q : Nat → Byte) : firstPositions 0 q = fun _ => 0#8 := by
  funext k
  exact if_neg (by omega)

/-- A mask ORed into some positions of a display. -/
theorem firstPositions_or_if {n k : Nat} {q : Nat → Byte} {mask : Byte} {c d : Prop} [Decidable c] [Decidable d]
    (hcd : c ↔ (1 ≤ k ∧ k ≤ n) ∧ d) :
    (firstPositions n q k ||| if c then mask else 0#8) = if 1 ≤ k ∧ k ≤ n then q k ||| (if d then mask else 0#8) else 0#8 := by
  by_cases hk : 1 ≤ k ∧ k ≤ n <;> simp [firstPositions, hk, hcd]

section
variable {m old : Memory} {n : Nat} {p q : Nat → Byte}

theorem Memory.Holds.congr (h : m.Holds old n p) (hpq : ∀ k, p k = q k) : m.Holds old n q := funext hpq ▸ h

/-- PREPARE leaves every cell in use 0 (R124). -/
theorem Memory.holds_prepare (hn : n ≤ 16) (m : Memory) : (prepare n m).Holds m n fun _ => 0#8 := read_prepare m hn

/-- A conditional OR into a cell in use. -/
theorem Memory.Holds.orCell_if (hn : n ≤ 16) (h : m.Holds old n p) (c : Prop) [Decidable c] {a : Nat} (ha : c → a ≤ n + 1)
    (mask : Byte) : (if c then m.orCell a mask else m).Holds old n fun k => p k ||| if k = a ∧ c then mask else 0#8 := by
  intro k
  by_cases hc : c
  · have hle := ha hc
    rw [if_pos hc, Memory.read_orCell m k mask (by simp only [capacity]; omega)]
    by_cases hk : k = a
    · simp [hk, hc, h a, hle]
    · simp [hk, h k]
  · simp [hc, h k]

/-- The battery overlay on a display (R175). -/
theorem Memory.Holds.batteryOverlay (hn : n ≤ 16) (h : m.Holds old n (firstPositions n q)) (level : Byte) :
    (batteryOverlay n level m).Holds old n (firstPositions n fun k => q k ||| batteryBits level k) := by
  have hbits : (Machine.batteryOverlay n level m).Holds old n fun k =>
      firstPositions n q k ||| if 1 ≤ k ∧ k ≤ min (min level.toNat 3) n then 0x80#8 else 0#8 := by
    intro k
    rw [batteryOverlaySetsLowPositions n level m k hn, h k]
    by_cases hlit : 1 ≤ k ∧ k ≤ min (min level.toNat 3) n
    · have hk : k ≤ n + 1 := by omega
      simp only [if_pos hlit, if_pos hk, Option.map_some]
    · simp only [if_neg hlit, BitVec.or_zero]
  exact hbits.congr fun _ => firstPositions_or_if (by omega)

/-- The decimal point on a display (R172, R174). -/
theorem Memory.Holds.decimalPoint (hn : n ≤ 16) (h : m.Holds old n (firstPositions n q)) (d : Nat) :
    (decimalPoint n d m).Holds old n (firstPositions n fun k => q k ||| if k = d ∧ k < n then dotMask else 0#8) :=
  (h.orCell_if hn (0 < d ∧ d < n) (a := d) (by omega) dotMask).congr fun _ => firstPositions_or_if (by omega)

/-- A guarded assignment without a dot to a blank position: where the guard fails the position stays blank (R120). -/
theorem Memory.Holds.assign (h : m.Holds old n p) {m' : Memory} {seg : Nat} {c : Prop} [Decidable c] {v : Byte}
    (hm' : ∀ k, m'.read k = if (seg < n ∧ c) ∧ k = seg + 1 then some (v ||| dotBits false) else m.read k)
    (hblank : p (seg + 1) = 0#8) :
    m'.Holds old n fun k => if k = seg + 1 ∧ seg < n then (if c then v else 0#8) else p k := by
  intro k
  rw [hm', h k]
  by_cases hk : k = seg + 1 ∧ seg < n
  · obtain ⟨rfl, hseg⟩ := hk
    by_cases hc : c <;> simp [hseg, hc, hblank, dotBits, hseg.le]
  · rw [if_neg fun hset => hk ⟨hset.2, hset.1.1⟩]
    simp only [if_neg hk]

/-- A digit set on a blank position (R121, R192). -/
theorem Memory.Holds.setDigitCell (hn : n ≤ 16) (h : m.Holds old n p) {seg : Nat} (hblank : p (seg + 1) = 0#8) (digit : Nat) :
    (setDigitCell n seg digit false m).Holds old n fun k => if k = seg + 1 ∧ seg < n then digitPattern digit else p k :=
  h.assign (read_setDigitCell m hn seg digit false) hblank

/-- A character set on a blank position (R122, R185). -/
theorem Memory.Holds.setCharCell (hn : n ≤ 16) (h : m.Holds old n p) {seg : Nat} (hblank : p (seg + 1) = 0#8) (sym : Nat) :
    (setCharCell n seg sym false m).Holds old n fun k => if k = seg + 1 ∧ seg < n then charPattern sym else p k :=
  h.assign (read_setCharCell m hn seg sym false) hblank

/-- The next digit of a display (R121, R172, R180). -/
theorem Memory.Holds.setDigitCell_next (hn : n ≤ 16) {j : Nat} (h : m.Holds old n (firstPositions j q)) (hj : j < n) {digit : Nat}
    (hd : digit ≤ 15) (hq : q (j + 1) = digitGlyph digit) :
    (Machine.setDigitCell n j digit false m).Holds old n (firstPositions (j + 1) q) := by
  refine (h.setDigitCell hn (firstPositions_of_gt q j.lt_succ_self) digit).congr fun k => ?_
  by_cases hk : k = j + 1
  · subst hk
    simp [firstPositions, hj, hq, digitPattern, hd]
  · rw [if_neg (by omega)]
    exact if_congr (by omega) rfl rfl

/-! ### Numerals -/

/-- The glyph at position `p` of the numeral `v` in a base: a digit where `v` has one, or everywhere with the zeros kept, and above
the digits the sign (R172, R180). -/
def numeralGlyph (base v : Nat) (zeros : Bool) (sign : Byte) (p : Nat) : Byte :=
  if hasDigit base v p || zeros then digitGlyph (v / base ^ (p - 1) % base)
  else if hasDigit base v (p - 1) then sign
  else 0#8

theorem hasDigit_of_div_ne_zero {base v j : Nat} (h : v / base ^ (j + 1) ≠ 0) : hasDigit base v (j + 2) = true := by
  have hle : base ^ (j + 1) ≤ v := by
    by_contra hlt
    exact h (Nat.div_eq_of_lt (by omega))
  simp [hasDigit, hle]

theorem not_hasDigit_of_div_eq_zero {base v j k : Nat} (hb : 0 < base) (h : v / base ^ (j + 1) = 0) (hk : j + 2 ≤ k) :
    hasDigit base v k = false := by
  have hlt : v < base ^ (j + 1) := Nat.lt_of_div_eq_zero (Nat.pow_pos hb) h
  have hpow : base ^ (j + 1) ≤ base ^ (k - 1) := Nat.pow_le_pow_right hb (by omega)
  simp only [hasDigit, Bool.or_eq_false_iff, beq_eq_false_iff_ne, decide_eq_false_iff_not]
  omega

/-- A numeral that ends at position `j + 1`, with no zeros kept above, has its sign there and nothing more. -/
theorem firstPositions_numeralGlyph_of_last {base v j n : Nat} (hb : 0 < base) (sign : Byte) (hj : j < n)
    (hdigit : hasDigit base v (j + 1) = true) (hlast : v / base ^ (j + 1) = 0) (k : Nat) :
    firstPositions n (numeralGlyph base v false sign) k =
      firstPositions (j + 1) (numeralGlyph base v false sign) k ||| if k = j + 2 ∧ j + 2 ≤ n then sign else 0#8 := by
  simp only [firstPositions]
  by_cases hle : k ≤ j + 1
  · rw [if_neg (show ¬ (k = j + 2 ∧ j + 2 ≤ n) by omega), BitVec.or_zero]
    exact if_congr (by omega) rfl rfl
  rw [if_neg (show ¬ (1 ≤ k ∧ k ≤ j + 1) by omega), BitVec.zero_or]
  by_cases hin : 1 ≤ k ∧ k ≤ n
  · have hnone := not_hasDigit_of_div_eq_zero hb hlast (show j + 2 ≤ k by omega)
    rw [if_pos hin, numeralGlyph, if_neg (by simp [hnone])]
    by_cases hk : k = j + 2
    · subst hk
      exact (if_pos hdigit).trans (if_pos ⟨rfl, hin.2⟩).symm
    · have hbelow := not_hasDigit_of_div_eq_zero hb hlast (show j + 2 ≤ k - 1 by omega)
      rw [if_neg (by simp [hbelow]), if_neg (by omega)]
  · rw [if_neg hin, if_neg (by omega)]

theorem firstPositions_unsigned_of_last {base v j n : Nat} (hb : 0 < base) (hj : j < n) (hdigit : hasDigit base v (j + 1) = true)
    (hlast : v / base ^ (j + 1) = 0) (k : Nat) :
    firstPositions n (numeralGlyph base v false 0#8) k = firstPositions (j + 1) (numeralGlyph base v false 0#8) k := by
  rw [firstPositions_numeralGlyph_of_last hb 0#8 hj hdigit hlast, ite_self, BitVec.or_zero]

/-- RENDER_HEX's loop, with the low `j` nibbles shown (R180). -/
theorem Memory.Holds.hexLoop (hn : n ≤ 16) {v fuel j : Nat} {suppress : Bool} (hfuel : j + fuel = n)
    (hdigit : (hasDigit 16 v (j + 1) || !suppress) = true)
    (h : m.Holds old n (firstPositions j (numeralGlyph 16 v (!suppress) 0#8))) :
    (hexLoop n suppress fuel (j + 1) (v / 16 ^ j) m).Holds old n (firstPositions n (numeralGlyph 16 v (!suppress) 0#8)) := by
  induction fuel generalizing j m with
  | zero => obtain rfl : j = n := hfuel; exact h
  | succ fuel ih =>
    have hnext := h.setDigitCell_next hn (by omega) (digit := v / 16 ^ j % 16) (by omega) (if_pos hdigit)
    rw [Machine.hexLoop, Nat.add_sub_cancel, Nat.div_div_eq_div_mul, ← pow_succ]
    split
    next hlast =>
      obtain ⟨hzero, rfl⟩ := hlast
      exact hnext.congr fun k => (firstPositions_unsigned_of_last (by omega) (by omega) (by simpa using hdigit) hzero k).symm
    next hmore =>
      refine ih (by omega) ?_ hnext
      cases suppress with
      | false => simp
      | true => simp [hasDigit_of_div_ne_zero (j := j) fun hzero => hmore ⟨hzero, rfl⟩]

/-- The numeral of RENDER_DEC: zeros are kept only without a sign, and the sign is the minus (R172). -/
def decimalNumeral (v : Nat) (neg suppress : Bool) : Nat → Byte :=
  numeralGlyph 10 v (!neg && !suppress) (if neg then minusPattern else 0#8)

/-- RENDER_DEC's loop, with the low `j` digits shown (R172). -/
theorem Memory.Holds.decimalLoop (hn : n ≤ 16) {v fuel j : Nat} {neg suppress : Bool} (hfuel : j + fuel = n)
    (hdigit : (hasDigit 10 v (j + 1) || (!neg && !suppress)) = true)
    (h : m.Holds old n (firstPositions j (decimalNumeral v neg suppress))) :
    (decimalLoop n neg suppress fuel (j + 1) (v / 10 ^ j) m).Holds old n (firstPositions n (decimalNumeral v neg suppress)) := by
  induction fuel generalizing j m with
  | zero => obtain rfl : j = n := hfuel; exact h
  | succ fuel ih =>
    have hnext := h.setDigitCell_next hn (by omega) (digit := v / 10 ^ j % 10) (by omega) (if_pos hdigit)
    rw [Machine.decimalLoop, Nat.add_sub_cancel, Nat.div_div_eq_div_mul, ← pow_succ]
    by_cases hzero : v / 10 ^ (j + 1) = 0
    · rw [if_pos hzero]
      cases neg with
      | true =>
        rw [if_pos rfl]
        have hsign := hnext.orCell_if hn (j + 1 + 1 ≤ n) (a := j + 1 + 1) (by omega) minusPattern
        exact hsign.congr fun k =>
          (firstPositions_numeralGlyph_of_last (by omega) minusPattern (by omega) (by simpa using hdigit) hzero k).symm
      | false =>
        cases suppress with
        | true =>
          exact hnext.congr fun k => (firstPositions_unsigned_of_last (by omega) (by omega) (by simpa using hdigit) hzero k).symm
        | false => exact ih (by omega) (by simp) hnext
    · rw [if_neg hzero]
      exact ih (by omega) (by simp [hasDigit_of_div_ne_zero hzero]) hnext

/-- RENDER_STR's loop puts the last character at position 1 (R185). -/
theorem Memory.Holds.textLoop (hn : n ≤ 16) {text : List Byte} (hlen : text.length ≤ n)
    (h : m.Holds old n p) (hblank : ∀ k, 1 ≤ k → k ≤ text.length → p k = 0#8) :
    (textLoop n text m).Holds old n fun k =>
      if 1 ≤ k ∧ k ≤ text.length then charPattern (text.getD (text.length - k) 0#8).toNat else p k := by
  induction text generalizing m p with
  | nil => exact h.congr fun k => (if_neg (by simp; omega)).symm
  | cons c rest ih =>
    rw [List.length_cons] at hlen hblank
    have hset := h.setCharCell hn (seg := rest.length) (hblank _ (by omega) le_rfl) (uint8 c)
    refine (ih (by omega) hset fun k hlo hhi => ?_).congr fun k => ?_
    · rw [if_neg (by omega), hblank k hlo (by omega)]
    · rw [List.length_cons]
      by_cases hk : k = rest.length + 1
      · subst hk
        rw [if_neg (by omega), if_pos ⟨rfl, by omega⟩, if_pos ⟨by omega, le_rfl⟩, Nat.sub_self, List.getD_cons_zero, uint8]
      · by_cases hin : 1 ≤ k ∧ k ≤ rest.length
        · rw [if_pos hin, if_pos (by omega), show rest.length + 1 - k = rest.length - k + 1 by omega, List.getD_cons_succ]
        · rw [if_neg hin, if_neg (by omega), if_neg (by omega)]

/-- The four digits of the clock and date layout (R190, R191). -/
theorem Memory.Holds.fourDigits (hn : n ≤ 16) (h : m.Holds old n fun _ => 0#8) (lo hi : Byte) :
    (fourDigits n lo hi m).Holds old n (fourDigitPattern lo hi n) := by
  have h1 := h.setDigitCell hn (seg := 0) rfl (ones lo)
  have h2 := h1.setDigitCell hn (seg := 1) (by simp) (tens lo)
  have h3 := h2.setDigitCell hn (seg := 2) (by simp) (ones hi)
  have h4 := h3.setDigitCell hn (seg := 3) (by simp) (tens hi)
  refine h4.congr fun k => ?_
  by_cases hk : n < k
  · rw [fourDigitPattern, if_pos hk, if_neg (by omega), if_neg (by omega), if_neg (by omega), if_neg (by omega)]
  · rw [fourDigitPattern, if_neg hk]
    match k with
    | 0 => simp
    | 1 => simp [show 0 < n by omega, ones, uint8]
    | 2 => simp [show 1 < n by omega, tens, uint8]
    | 3 => simp [show 2 < n by omega, ones, uint8]
    | 4 => simp [show 3 < n by omega, tens, uint8]
    | k + 5 => simp

/-- A block of bytes from position 1 upwards (R188). -/
theorem Memory.Holds.storeBytes (hn : n ≤ 16) (h : m.Holds old n fun _ => 0#8) {bytes : List Byte} {count : Nat} (hcount : count ≤ n)
    (hfits : count ≤ bytes.length) :
    (m.store 1 (bytes.take count)).Holds old n (firstPositions count fun k => bytes.getD (k - 1) 0#8) := by
  intro k
  have hlen : (bytes.take count).length = count := List.length_take_of_le hfits
  rw [Memory.read_store m 1 k _ (by simp only [hlen, capacity]; omega), hlen, h k]
  by_cases hk : 1 ≤ k ∧ k ≤ count
  · have hget : (bytes.take count)[k - 1]? = some (bytes.getD (k - 1) 0#8) := by
      rw [List.getElem?_take_of_lt (by omega), List.getD_eq_getElem?_getD, List.getElem?_eq_getElem (by omega), Option.getD_some]
    rw [if_pos (by omega), hget, if_pos (by omega), firstPositions, if_pos hk]
  · rw [if_neg (by omega), firstPositions, if_neg hk]

end

/-! ### What each renderer shows -/

/-- A renderer is refused before the first INIT (R262), and else shows the cells its fill makes of a prepared buffer (R170). -/
theorem exec_renders {i : Instr} {fill : Nat → Memory → Memory} {s : State}
    (hexec : exec i s = withSize s fun n => render n (fill n) s) {p : Nat → Nat → Byte}
    (hfill : ∀ n, n ≤ 16 → ∀ m old : Memory, m.Holds old n (fun _ => 0#8) → (fill n m).Holds old n (p n)) :
    (s.n = none → exec i s = .next { s with refused := true, refusals := s.refusals ++ [.notInitialised] }) ∧
      ∀ n, s.hasSize n → ∃ t, exec i s = .next t ∧ s.shown n (p n) t := by
  refine ⟨fun hnone => hexec.trans (withSize_unset hnone _), fun n hs => ?_⟩
  rw [hexec, withSize_set hs]
  have hn := (State.hasSize_le hs).2
  exact render_shown hn _ s (p n) (hfill n hn _ _ (Memory.holds_prepare hn s.buf))

theorem decimalNumeral_eq_decimalGlyph (value : Word32) (suppress : Bool) :
    decimalNumeral (magnitude value) (isNegative value) suppress = decimalGlyph value suppress := by
  funext p
  unfold decimalNumeral numeralGlyph decimalGlyph magnitude isNegative int32
  by_cases hneg : value.toInt < 0
  · simp [hneg, not_le.2 hneg]
  · simp [hneg, not_lt.1 hneg]

theorem numeralGlyph_unsigned (base v : Nat) (zeros : Bool) :
    numeralGlyph base v zeros 0#8 = fun p => if hasDigit base v p || zeros then digitGlyph (v / base ^ (p - 1) % base) else 0#8 := by
  funext p
  rw [numeralGlyph, ite_self]

/-- Settles O38: the loop fills in the numeral, and the dot and the battery are ORed in. -/
theorem renderDecShowsDecimal : Obligations.RenderDecShowsDecimal := by
  intro value decPoint suppress battery s
  refine exec_renders (exec_renderDec value decPoint suppress battery s) fun n hn m old hblank => ?_
  rw [← firstPositions_zero] at hblank
  have hloop := hblank.decimalLoop hn (v := magnitude value) (neg := isNegative value) (suppress := suppress) (Nat.zero_add n) rfl
  rw [pow_zero, Nat.div_one, decimalNumeral_eq_decimalGlyph] at hloop
  exact (hloop.decimalPoint hn decPoint.toNat).batteryOverlay hn battery

/-- Settles O39: the loop fills in the numeral, and the battery is ORed in. -/
theorem renderHexShowsNibbles : Obligations.RenderHexShowsNibbles := by
  intro value suppress battery s
  refine exec_renders (exec_renderHex value suppress battery s) fun n hn m old hblank => ?_
  rw [← firstPositions_zero] at hblank
  have hloop := hblank.hexLoop hn (v := value.toNat) (suppress := suppress) (Nat.zero_add n) rfl
  rw [pow_zero, Nat.div_one, numeralGlyph_unsigned] at hloop
  exact hloop.batteryOverlay hn battery

/-- Settles O40: the loop fills in the characters kept, and the battery is ORed in. -/
theorem renderStrShowsText : Obligations.RenderStrShowsText := by
  intro text battery s
  refine exec_renders (exec_renderStr text battery s) fun n hn m old hblank => ?_
  have hloop := hblank.textLoop hn (text := text.take n) (List.length_take_le n text) fun _ _ _ => rfl
  have hshow : (textLoop n (text.take n) m).Holds old n (firstPositions n fun k =>
      if k ≤ min text.length n then charPattern (text.getD (min text.length n - k) 0#8).toNat else 0#8) := by
    refine hloop.congr fun k => ?_
    rw [List.length_take, Nat.min_comm n]
    by_cases hk : 1 ≤ k ∧ k ≤ min text.length n
    · rw [if_pos hk, firstPositions, if_pos (by omega), if_pos hk.2, List.getD_eq_getElem?_getD,
        List.getElem?_take_of_lt (by omega), List.getD_eq_getElem?_getD]
    · rw [if_neg hk, firstPositions]
      by_cases hin : 1 ≤ k ∧ k ≤ n
      · rw [if_pos hin, if_neg (by omega)]
      · rw [if_neg hin]
  exact hshow.batteryOverlay hn battery

/-- Settles O41: enough bytes are stored from position 1 upwards. -/
theorem renderRawCopiesBytes : Obligations.RenderRawCopiesBytes := by
  intro bytes count s
  refine ⟨fun hnone => (exec_renderRaw bytes count s).trans (withSize_unset hnone _), fun n hs => ?_⟩
  have hn := (State.hasSize_le hs).2
  rw [exec_renderRaw, withSize_set hs]
  split
  next hfits => exact render_shown hn _ s _ ((Memory.holds_prepare hn s.buf).storeBytes hn (Nat.min_le_right count n) hfits)
  next => rfl

/-- Settles O42: the dot is ORed into the four digits at position 1. -/
theorem renderClockShowsTime : Obligations.RenderClockShowsTime := by
  intro hours minutes separator s
  refine exec_renders (exec_renderClock hours minutes separator s) fun n hn m old hblank => ?_
  exact (hblank.fourDigits hn minutes hours).orCell_if hn (separator = true) (a := 1) (by omega) dotMask

/-- Settles O43: the dot is ORed into the four digits at position 3, where there is one. -/
theorem renderDateShowsDate : Obligations.RenderDateShowsDate := by
  intro day month s
  refine exec_renders (exec_renderDate day month s) fun n hn m old hblank => ?_
  have hdigits := hblank.fourDigits hn (dateLow day month) (dateHigh day month)
  refine (hdigits.orCell_if hn (3 ≤ n) (a := 3) (by omega) dotMask).congr fun k => ?_
  unfold datePattern dateLow dateHigh
  cases Config.dateLayout <;> rfl

/-! ### The minimal boot -/

/-- INIT sets `N` and leaves both marks (R21, R210, R263). -/
theorem exec_init_hasSize (size : Byte) (s : State) :
    ∃ t n, exec (.init size) s = .next t ∧ t.hasSize n ∧ t.refused = s.refused ∧ t.faulted = s.faulted := by
  have hmarks : (sendAll initCodes s).2.refused = s.refused ∧ (sendAll initCodes s).2.faulted = s.faulted :=
    sendAll_keeps (P := fun t => t.refused = s.refused ∧ t.faulted = s.faulted)
      (fun _ t ⟨hr, hf⟩ => ⟨(emit_refused _ _ t).trans hr, (emit_faulted _ _ t).trans hf⟩) initCodes ⟨rfl, rfl⟩
  rcases State.sizeOk_setSize_clampSize (sendAll initCodes s).2 size with hnone | ⟨n, hn⟩
  · cases hnone
  · exact ⟨_, n, exec_init size s, hn, hmarks⟩

/-- With `N` set CLEAR and every renderer show some cells, RENDER_RAW if it has the bytes (R170). -/
theorem exec_shows {s : State} {n : Nat} (hs : s.hasSize n) {i : Instr}
    (hi : i = .clear ∨ (∃ v d z b, i = .renderDec v d z b) ∨ (∃ v z b, i = .renderHex v z b) ∨ (∃ x b, i = .renderStr x b) ∨
      (∃ x c, i = .renderRaw x c ∧ min c n ≤ x.length) ∨ (∃ h m z, i = .renderClock h m z) ∨ (∃ d m, i = .renderDate d m)) :
    ∃ t p, exec i s = .next t ∧ s.shown n p t := by
  have shows : ∀ {i p}, (∃ t, exec i s = .next t ∧ s.shown n p t) → ∃ t p, exec i s = .next t ∧ s.shown n p t :=
    fun ⟨t, ht⟩ => ⟨t, _, ht⟩
  rcases hi with rfl | ⟨v, d, z, b, rfl⟩ | ⟨v, z, b, rfl⟩ | ⟨x, b, rfl⟩ | ⟨x, c, rfl, hc⟩ | ⟨h, m, z, rfl⟩ | ⟨d, m, rfl⟩
  · exact shows ((exec_renders (exec_clear s) fun _ _ _ _ hblank => hblank).2 n hs)
  · exact shows ((renderDecShowsDecimal v d z b s).2 n hs)
  · exact shows ((renderHexShowsNibbles v z b s).2 n hs)
  · exact shows ((renderStrShowsText x b s).2 n hs)
  · have hraw := (renderRawCopiesBytes x c s).2 n hs
    exact shows (by rwa [if_pos hc] at hraw)
  · exact shows ((renderClockShowsTime h m z s).2 n hs)
  · exact shows ((renderDateShowsDate d m s).2 n hs)

/-- Settles O46: INIT sets some `N` and leaves the marks, and what is shown for it is one transaction. -/
theorem minimalBootShows : Obligations.MinimalBootShows := by
  intro size s i hi
  obtain ⟨t, n, hinit, hs, hrefused, hfaulted⟩ := exec_init_hasSize size s
  have henough : (∃ x c, i = .renderRaw x c ∧ c ≤ x.length) → ∃ x c, i = .renderRaw x c ∧ min c n ≤ x.length :=
    fun ⟨x, c, hx, hc⟩ => ⟨x, c, hx, (Nat.min_le_left c n).trans hc⟩
  obtain ⟨u, p, hexec, -, -, hu⟩ := exec_shows hs (hi.imp_right (.imp_right (.imp_right (.imp_right (.imp_left henough)))))
  exact ⟨t, u, frameOf n (wireByte p), hinit, hexec, (congrArg State.refused hu).trans hrefused,
    (congrArg State.faulted hu).trans hfaulted, congrArg State.events hu⟩

end Sys2Proof.Machine

/-! ### Configuration and lifecycle

INIT is a sequence of commands, POWER_ON and POWER_OFF are one each, and CLEAR shows blank cells. `sendAll_eq` says what a sequence
of any length does: it draws one status for each command, records one transaction for each, and folds the statuses (R27, R210). -/

namespace Sys2Proof.Machine

/-! ### One command -/

/-- One command whose status goes to `STATUS` (R27, R101). -/
theorem sendCmd_setStatus_nextStatus (k : Byte) (s : State) :
    (sendCmd k s).setStatus s.nextStatus =
      { s.afterDraws 1 with
        status := s.answer 0
        events := s.events ++ transaction (encodeCommand k) .tCmd (s.answer 0) } := by
  rw [sendCmd_eq, State.nextStatus_eq_answer, State.setStatus]

/-- Settles O22: POWER_ON is one command whose status goes to `STATUS`. -/
theorem powerOnSendsLcdOn : Obligations.PowerOnSendsLcdOn := fun s => by
  rw [exec_powerOn, sendCmd_setStatus_nextStatus]

/-- Settles O23: POWER_OFF is one command whose status goes to `STATUS`. -/
theorem powerOffSendsLcdOff : Obligations.PowerOffSendsLcdOff := fun s => by
  rw [exec_powerOff, sendCmd_setStatus_nextStatus]

/-! ### A sequence of commands -/

/-- The next `count` statuses the transport returns, in order (R78). -/
def State.answers (s : State) (count : Nat) : List BusStatus := (List.range count).map s.answer

theorem State.answers_succ (s : State) (count : Nat) : s.answers (count + 1) = s.answer 0 :: (s.afterDraws 1).answers count := by
  simp only [State.answers, List.range_succ_eq_map, List.map_cons, List.map_map, List.cons.injEq, true_and]
  exact List.map_congr_left fun k _ => by rw [Function.comp_apply, State.answer_afterDraws, Nat.succ_eq_one_add]

/-- The transactions of the commands `codes`, in order, with the statuses `xs` returned for them (R73, R210). -/
def commandEvents (codes : List Byte) (xs : List BusStatus) : List BusEvent :=
  (List.zipWith (fun k x => transaction (encodeCommand k) .tCmd x) codes xs).flatten

theorem commandEvents_cons (k : Byte) (codes : List Byte) (x : BusStatus) (xs : List BusStatus) :
    commandEvents (k :: codes) (x :: xs) = transaction (encodeCommand k) .tCmd x ++ commandEvents codes xs := rfl

theorem bothOk_ok (x : BusStatus) : bothOk .ok x = x := by cases x <;> rfl

/-- The fold of one status more (R27). -/
theorem foldStatus_cons (x : BusStatus) (xs : List BusStatus) : foldStatus (x :: xs) = bothOk x (foldStatus xs) := by
  cases x with
  | ok => exact (bothOk_ok _).symm
  | fail => rfl

/-- A sequence of commands sends one frame for each code and folds the statuses; only the draws and the record change (R27, R101). -/
theorem sendAll_eq (codes : List Byte) (s : State) :
    sendAll codes s =
      (foldStatus (s.answers codes.length),
        { s.afterDraws codes.length with events := s.events ++ commandEvents codes (s.answers codes.length) }) := by
  induction codes generalizing s with
  | nil => simp [sendAll, State.answers, State.afterDraws, commandEvents, foldStatus]
  | cons k rest ih =>
    have hdraws : (s.afterDraws 1).afterDraws rest.length = s.afterDraws (rest.length + 1) := by
      rw [State.afterDraws_afterDraws, Nat.add_comm]
    rw [sendAll, ih, List.length_cons, State.answers_succ, foldStatus_cons, commandEvents_cons, State.nextStatus_eq_answer,
      sendCmd_eq, ← hdraws, ← List.append_assoc]
    rfl

/-- Settles O20: INIT is the sequence of its six codes, with `N` and `STATUS` set after it; the closing `rfl` lists their six answers
and transactions. -/
theorem initSendsSixCommandsAndSetsSize : Obligations.InitSendsSixCommandsAndSetsSize := by
  intro size s
  rw [exec_init, sendAll_eq]
  simp only [List.append_assoc]
  rfl

/-! ### The size INIT sets -/

/-- What INIT writes to `N` is the size clamped into `[2,16]` (R211). -/
theorem State.hasSize_setSize_clampSize (s : State) (size : Byte) :
    (s.setSize (clampSize size)).hasSize (max minSize (min maxSize size.toNat)) :=
  ⟨rfl, by omega, by simp [minSize, maxSize]⟩

/-- Settles O21: the clamp is below, in or above the range. -/
theorem initClampsSize : Obligations.InitClampsSize := by
  intro size s
  have hclamp : max minSize (min maxSize size.toNat) =
      if size.toNat < 2 then 2 else if size.toNat ≤ 16 then size.toNat else 16 := by
    simp only [minSize, maxSize]
    split_ifs <;> omega
  rw [← hclamp]
  exact ⟨_, exec_init size s, State.hasSize_setSize_clampSize (sendAll initCodes s).2 size⟩

/-! ### The blank frame -/

/-- The wire form of blank cells is the header and zeros (R153, R214). -/
theorem wireByte_blank : (wireByte fun _ => 0#8) = fun k => if k = 0 then 0xA0#8 else 0#8 := by
  funext k
  match k with
  | 0 => rfl
  | 1 => rfl
  | k + 2 => rw [wireByte, if_neg (by omega)]; decide

/-- Settles O24: CLEAR is the render that fills nothing in, so it shows blank cells. -/
theorem clearSendsBlankFrame : Obligations.ClearSendsBlankFrame := by
  intro s
  rw [← wireByte_blank]
  exact exec_renders (exec_clear s) fun _ _ _ _ hblank => hblank

end Sys2Proof.Machine

/-! ### The mark `FAULTED` and the transport's answers

That only SHOW faults (R235, R263) is a case analysis on `Effect`. That the transport's answers reach `STATUS` and the recorded
statuses only (R233) compares two runs of one request, so it follows the operations. -/

namespace Sys2Proof.Machine

/-! ### Who faults -/

/-- Every effect but SHOW's fault leaves the mark `FAULTED` (R235). -/
theorem Effect.faulted_eq {i : Instr} {s t : State} (he : Effect i s t) (hshow : i ≠ .showFrame) : t.faulted = s.faulted := by
  cases he with
  | refused | stored | shown => rfl
  | faulted hi => exact absurd hi hshow
  | initialised size => rw [sendAll_eq]; rfl
  | commanded k => exact emit_faulted (encodeCommand k) .tCmd s
  | wired bytes l => exact emit_faulted bytes l s

/-- Settles O14: an effect of another instruction leaves the mark; CLEAR's and the renderers' faults are ruled out in `exec_effect`. -/
theorem onlyShowFaults : Obligations.OnlyShowFaults :=
  fun _ _ _ h hchanged => by_contra fun hshow => hchanged ((exec_effect h).faulted_eq hshow)

/-! ### Two runs with different answers of the transport -/

theorem sentOf_append (xs ys : List BusEvent) : sentOf (xs ++ ys) = sentOf xs ++ sentOf ys := by
  induction xs with
  | nil => rfl
  | cons e rest ih => cases e <;> simp [sentOf, ih]

/-- What a transaction sends does not show the status it returned (R17). -/
theorem sentOf_transaction (bytes : List Byte) (l : Timeout) (x y : BusStatus) :
    sentOf (transaction bytes l x) = sentOf (transaction bytes l y) := rfl

/-- `s'` has what `s` has and has sent what `s` has sent; `STATUS`, the recorded statuses and the answers to come may differ. -/
structure State.AgreesButAnswers (s s' : State) : Prop where
  n : s'.n = s.n
  buf : s'.buf = s.buf
  faulted : s'.faulted = s.faulted
  refused : s'.refused = s.refused
  refusals : s'.refusals = s.refusals
  requests : s'.requests = s.requests
  sent : sentOf s'.events = sentOf s.events

namespace State.AgreesButAnswers

variable {s s' : State}

theorem setBuf (h : s.AgreesButAnswers s') (m : Memory) : (s.setBuf m).AgreesButAnswers (s'.setBuf m) :=
  { h with buf := rfl }

theorem setSize (h : s.AgreesButAnswers s') (x : BitVec 5) : (s.setSize x).AgreesButAnswers (s'.setSize x) :=
  { h with n := rfl }

/-- The two runs may set `STATUS` to different values. -/
theorem setStatus (h : s.AgreesButAnswers s') (x y : BusStatus) : (s.setStatus x).AgreesButAnswers (s'.setStatus y) :=
  { h with }

theorem markFaulted (h : s.AgreesButAnswers s') : s.markFaulted.AgreesButAnswers s'.markFaulted :=
  { h with faulted := rfl }

theorem markRefused (h : s.AgreesButAnswers s') (r : RefuseReason) : (s.markRefused r).AgreesButAnswers (s'.markRefused r) :=
  { h with refused := rfl, refusals := by simp [h.refusals] }

/-- One transaction sends the same in both runs, whatever each is answered (R233). -/
theorem emit (h : s.AgreesButAnswers s') (bytes : List Byte) (l : Timeout) :
    (emit bytes l s).AgreesButAnswers (emit bytes l s') := by
  have hsent : sentOf (s'.events ++ transaction bytes l (s'.answer 0)) = sentOf (s.events ++ transaction bytes l (s.answer 0)) := by
    rw [sentOf_append, sentOf_append, h.sent, sentOf_transaction]
  rw [emit_eq, emit_eq]
  exact { h with sent := hsent }

theorem sendCmd (h : s.AgreesButAnswers s') (k : Byte) : (sendCmd k s).AgreesButAnswers (sendCmd k s') := h.emit _ _

theorem sendAll (h : s.AgreesButAnswers s') (codes : List Byte) : (sendAll codes s).2.AgreesButAnswers (sendAll codes s').2 := by
  induction codes generalizing s s' with
  | nil => exact h
  | cons k rest ih => exact ih (h.sendCmd k)

end State.AgreesButAnswers

/-- Where `r` answers a next state, `r'` answers one that agrees with it but for the transport's answers. -/
def Result.AgreesButAnswers (r r' : Result) : Prop :=
  ∀ t, r = .next t → ∃ t', r' = .next t' ∧ t.AgreesButAnswers t'

theorem Result.AgreesButAnswers.next {t t' : State} (h : t.AgreesButAnswers t') : Result.AgreesButAnswers (.next t) (.next t') :=
  fun _ ht => ⟨t', rfl, Host.Outcome.next.inj ht ▸ h⟩

section

variable {s s' : State}

/-- Both runs are refused, both bodies run on the same number, or the first stops. -/
theorem State.AgreesButAnswers.withSize (h : s.AgreesButAnswers s') {body body' : Nat → Result}
    (hbody : ∀ n, Result.AgreesButAnswers (body n) (body' n)) : Result.AgreesButAnswers (withSize s body) (withSize s' body') := by
  unfold Machine.withSize
  rw [h.n]
  split
  · exact .next (h.markRefused _)
  · split
    · exact hbody _
    · exact fun _ hfault => nomatch hfault

/-- Whether SHOW faults depends on the cells alone (R260). -/
theorem State.AgreesButAnswers.showBuffer (h : s.AgreesButAnswers s') (n : Nat) (m : Memory) :
    Result.AgreesButAnswers (showBuffer n m s) (showBuffer n m s') := by
  unfold Machine.showBuffer
  split
  · exact .next h.markFaulted
  · exact .next (((h.setBuf _).emit _ _).setStatus _ _)

theorem State.AgreesButAnswers.render (h : s.AgreesButAnswers s') (n : Nat) (fill : Memory → Memory) :
    Result.AgreesButAnswers (render n fill s) (render n fill s') := by
  unfold Machine.render
  rw [h.buf]
  exact h.showBuffer _ _

/-- A request that is `withSize` over a body keeps the agreement where its body does. -/
theorem State.AgreesButAnswers.exec_of_body (h : s.AgreesButAnswers s') {i : Instr} {body : State → Nat → Result}
    (hexec : ∀ s, exec i s = Machine.withSize s (body s)) (hbody : ∀ n, Result.AgreesButAnswers (body s n) (body s' n)) :
    Result.AgreesButAnswers (exec i s) (exec i s') := by
  rw [hexec, hexec]
  exact h.withSize hbody

/-- No meaning lets the transport's answers reach anything but `STATUS` and the recorded statuses (R233). -/
theorem State.AgreesButAnswers.exec (h : s.AgreesButAnswers s') (i : Instr) : Result.AgreesButAnswers (exec i s) (exec i s') := by
  have hstore : ∀ {i} {fill : Nat → Memory → Memory},
      (∀ s, Machine.exec i s = Machine.withSize s fun n => .next (s.setBuf (fill n s.buf))) →
      Result.AgreesButAnswers (Machine.exec i s) (Machine.exec i s') :=
    fun hexec => h.exec_of_body hexec fun n => by rw [h.buf]; exact .next (h.setBuf _)
  have hrender : ∀ {i} {fill : Nat → Memory → Memory},
      (∀ s, Machine.exec i s = Machine.withSize s fun n => Machine.render n (fill n) s) →
      Result.AgreesButAnswers (Machine.exec i s) (Machine.exec i s') :=
    fun hexec => h.exec_of_body hexec fun n => h.render n _
  cases i with
  | init size => exact .next (((h.sendAll initCodes).setSize _).setStatus _ _)
  | clear => exact hrender exec_clear
  | prepare => exact hstore exec_prepare
  | setDigit seg digit dot => exact hstore (exec_setDigit seg digit dot)
  | setChar seg sym dot => exact hstore (exec_setChar seg sym dot)
  | setRaw seg raw => exact hstore (exec_setRaw seg raw)
  | showFrame => exact h.exec_of_body exec_showFrame fun n => by rw [h.buf]; exact h.showBuffer n s.buf
  | renderDec value decPoint suppress battery => exact hrender (exec_renderDec value decPoint suppress battery)
  | renderHex value suppress battery => exact hrender (exec_renderHex value suppress battery)
  | renderStr text battery => exact hrender (exec_renderStr text battery)
  | renderRaw bytes count =>
    refine h.exec_of_body (exec_renderRaw bytes count) fun n => ?_
    split
    · exact h.render n _
    · exact .next (h.markRefused _)
  | renderClock hours minutes separator => exact hrender (exec_renderClock hours minutes separator)
  | renderDate day month => exact hrender (exec_renderDate day month)
  | powerOn | powerOff => exact .next ((h.sendCmd _).setStatus _ _)
  | reserved => exact .next (h.markRefused _)
  | wireCmd k => exact .next (h.sendCmd k)
  | wireWrite data pad => exact .next (h.emit _ _)

end

/-- Settles O16: the two runs start from states that agree but for the answers to come, and every meaning keeps that. -/
theorem transportStatusChangesNothingElse : Obligations.TransportStatusChangesNothingElse := by
  intro i s t answers index hexec
  have hstart : s.AgreesButAnswers { s with transport := answers, drawIndex := index } := ⟨rfl, rfl, rfl, rfl, rfl, rfl, rfl⟩
  obtain ⟨t', hexec', h⟩ := hstart.exec i t hexec
  exact ⟨t', hexec', h.n, h.buf, h.faulted, h.refused, h.refusals, h.requests, h.sent⟩

end Sys2Proof.Machine

/-! ### Reset and hazards

What a request meets that comes too early: a refusal before the first INIT (R262), a fault where INIT alone has run (R263). And what
a frame carries beyond its patterns: a second SHOW shifts the wire image again (R266), and the trailer leaves the padding (R268). -/

namespace Sys2Proof.Machine

/-! ### Requests that come too early -/

/-- Settles O18: a request that reads `N` asks for it first, and the meanings of the other three write neither the mark nor the
record of refusals. -/
theorem requestsBeforeInitRefused : Obligations.RequestsBeforeInitRefused := by
  refine ⟨fun i s hneeds hnone => ?_, fun i s hi => ?_⟩
  · obtain ⟨body, hexec, -⟩ := exec_withSize i hneeds
    exact (hexec s).trans (withSize_unset hnone _)
  · rcases hi with ⟨size, rfl⟩ | rfl | rfl
    · exact ⟨_, initSendsSixCommandsAndSetsSize size s, rfl, rfl⟩
    · exact ⟨_, powerOnSendsLcdOn s, rfl, rfl⟩
    · exact ⟨_, powerOffSendsLcdOff s, rfl, rfl⟩

/-- INIT writes no cell (R210). -/
theorem exec_init_buf {size : Byte} {s t : State} (h : exec (.init size) s = .next t) : t.buf = s.buf := by
  rw [initSendsSixCommandsAndSetsSize] at h
  cases h
  rfl

/-- Settles O37: INIT sets `N` and writes no cell, so SHOW finds the header unwritten (R260). -/
theorem showAfterInitAloneFaults : Obligations.ShowAfterInitAloneFaults := by
  intro size s hunwritten
  obtain ⟨t, n, hinit, hsize, -, -⟩ := exec_init_hasSize size s
  have hheader : t.buf.read 0 = none := by rw [exec_init_buf hinit, hunwritten]
  obtain ⟨-, hfaults, -⟩ := showShiftsAndTransmits t
  exact ⟨t, hinit, hfaults n hsize ⟨0, Nat.zero_le _, hheader⟩⟩

/-! ### SHOW after SHOW -/

/-- Sending a frame leaves `N`. -/
theorem State.sentAs.hasSize {s t : State} {n k : Nat} {q : Nat → Byte} (h : s.sentAs n q t) (hs : s.hasSize k) : t.hasSize k := by
  obtain ⟨-, -, ht⟩ := h
  rw [ht]
  exact hs

/-- Settles O36: the first SHOW leaves its frame in the cells in use, and those are what the second SHOW shifts. -/
theorem repeatedShowShiftsWireImage : Obligations.RepeatedShowShiftsWireImage := by
  intro s n p hs hp
  obtain ⟨t, ht, hshown⟩ := showLeavesWireForm s n p hs hp
  obtain ⟨u, hu, hshown'⟩ := showLeavesWireForm t n (wireByte p) (hshown.hasSize hs) hshown.1
  exact ⟨t, u, ht, hu, hshown'⟩

/-! ### The padding of a rendered frame -/

/-- A blank trailer leaves seven zeros below the bit carried into the last byte (R152, R153). -/
theorem wireByte_blank_trailer {p : Nat → Byte} {n : Nat} (hn : 2 ≤ n) (hblank : p (n + 1) = 0#8) :
    wireByte p (n + 1) &&& 0x7F#8 = 0#8 := by
  obtain ⟨k, rfl⟩ : ∃ k, n = k + 1 := ⟨n - 1, by omega⟩
  rw [wireByte, carry_and_0x7F, hblank]
  rfl

theorem frameOf_getElem?_last (n : Nat) (q : Nat → Byte) : (frameOf n q)[n + 1]? = some (q (n + 1)) := by
  simp [frameOf]

/-- The four digits reach no cell past position `n` (R192). -/
theorem fourDigitPattern_trailer (lo hi : Byte) (n : Nat) : fourDigitPattern lo hi n (n + 1) = 0#8 := if_pos n.lt_succ_self

theorem clockPattern_trailer (hours minutes : Byte) (separator : Bool) {n : Nat} (hn : 2 ≤ n) :
    clockPattern hours minutes separator n (n + 1) = 0#8 := by
  rw [clockPattern, fourDigitPattern_trailer, if_neg (by omega), BitVec.or_zero]

theorem datePattern_trailer (layout : DateLayout) (day month : Byte) (n : Nat) : datePattern layout day month n (n + 1) = 0#8 := by
  have hdot : ¬ (n + 1 = 3 ∧ 3 ≤ n) := by omega
  cases layout <;> simp only [datePattern, fourDigitPattern_trailer, if_neg hdot, BitVec.or_zero]

/-- What is shown with a blank trailer is one transaction whose last byte ends in seven zeros. -/
theorem State.shown.ends_in_zero_padding {s t : State} {n : Nat} {p : Nat → Byte} (h : s.shown n p t) (hn : 2 ≤ n)
    (hblank : p (n + 1) = 0#8) :
    ∃ bytes last, t.events = s.events ++ transaction bytes .tShow (s.answer 0) ∧ bytes[n + 1]? = some last ∧
      last &&& 0x7F#8 = 0#8 := by
  obtain ⟨-, -, ht⟩ := h
  exact ⟨frameOf n (wireByte p), wireByte p (n + 1), congrArg State.events ht, frameOf_getElem?_last n _,
    wireByte_blank_trailer hn hblank⟩

/-- Settles O47: the cells that CLEAR and each renderer show are blank at the trailer. -/
theorem renderedFramesEndInZeroPadding : Obligations.RenderedFramesEndInZeroPadding := by
  intro s t n i hs hi hexec
  have hn := (State.hasSize_le hs).1
  have hpast : ¬ (1 ≤ n + 1 ∧ n + 1 ≤ n) := by omega
  have ends : ∀ {p}, (∃ u, exec i s = .next u ∧ s.shown n p u) → p (n + 1) = 0#8 → _ :=
    fun ⟨_, hu, hshown⟩ hblank => (Host.Outcome.next.inj (hu.symm.trans hexec) ▸ hshown).ends_in_zero_padding hn hblank
  rcases hi with rfl | ⟨v, d, z, b, rfl⟩ | ⟨v, z, b, rfl⟩ | ⟨x, b, rfl⟩ | ⟨x, c, rfl, hc⟩ | ⟨h, m, z, rfl⟩ | ⟨d, m, rfl⟩
  · exact ends ((exec_renders (exec_clear s) fun _ _ _ _ hblank => hblank).2 n hs) rfl
  · exact ends ((renderDecShowsDecimal v d z b s).2 n hs) (if_neg hpast)
  · exact ends ((renderHexShowsNibbles v z b s).2 n hs) (if_neg hpast)
  · exact ends ((renderStrShowsText x b s).2 n hs) (if_neg hpast)
  · have hraw := (renderRawCopiesBytes x c s).2 n hs
    rw [if_pos hc] at hraw
    exact ends hraw (if_neg (by omega))
  · exact ends ((renderClockShowsTime h m z s).2 n hs) (clockPattern_trailer h m z hn)
  · exact ends ((renderDateShowsDate d m s).2 n hs) (datePattern_trailer _ d m n)

end Sys2Proof.Machine
